-- ==== Sys2Proof/Word.lean ====
section
/-! DEFINITION. The widths of `00_scope.md` rule R8: every value of this hardware is an unsigned integer of a
stated width. -/

namespace Sys2Proof

/-- `u8`, one byte. -/
abbrev Byte := BitVec 8

/-- `u32`, one word. -/
abbrev Word := BitVec 32

/-- `u64`, the width of LEN and of port ORIGBITS. -/
abbrev Len := BitVec 64

/-- `u256`, the width of the ports FSTATE and DIGEST. -/
abbrev Port := BitVec 256

/-- The 12-bit command word of rule R90. -/
abbrev CmdWord := BitVec 12

end Sys2Proof
end

