-- ==== Sys2Proof/Syntax.lean ====
section
/-! DEFINITION. The commands of the core (`30_encoding.md` rules R92, R95), one constructor per row of the opcode
table, the transaction that carries one on the host's ports, and the listing syntax of rules R99 to R102. -/

namespace Sys2Proof

/-- The five commands, with their operands (rule R95). A word that decodes to none of them is no command: the
decoder rejects it by name and the step raises IllegalCommand. -/
inductive Instr where
  /-- `digest`: begin a fresh computation, R211. -/
  | init
  /-- `continueDigest`: begin from a foreign state, R212; both operands come from ports. -/
  | resume (fstate : Port) (origbits : Len)
  /-- The byte source delivers one byte, R213. -/
  | push (b : Byte)
  /-- The byte source is exhausted, R214. -/
  | final
  /-- The byte source failed, R215. -/
  | srcerr
  deriving DecidableEq, Repr

/-- One transaction on the command port (rule R35) with the values the operand ports show at it (rules R36,
R37). Every transaction finds some value on those two ports; only RESUME reads them. -/
structure Transaction where
  word     : CmdWord
  fstate   : Port
  origbits : Len
  deriving DecidableEq, Repr

/-- A line of the listing syntax (rule R99) with its pseudo-instructions (rules R100 to R102), as numbers: the
bytes of a quoted string or of `hex:` digits, the 32 bytes of `fstate` first byte first (rule R108). -/
inductive Listing where
  | init
  | resume (fstate : List Byte) (origbits : Nat)
  | push (byte : Nat)
  | final
  | srcerr
  /-- `PUSHS <bytes>`, R100. -/
  | pushs (bytes : List Byte)
  /-- `DIGEST <bytes>`, R101. -/
  | digest (bytes : List Byte)
  /-- `CONTINUE <bytes>, fstate=…, origbits=…`, R102. -/
  | continuation (bytes : List Byte) (fstate : List Byte) (origbits : Nat)
  deriving DecidableEq, Repr

end Sys2Proof
end

