-- ==== Sys2Proof/WellFormed.lean ====
section
/-! DEFINITION. What makes a command word legal and a listing line well formed. A value of `Instr` needs no check
of its own: its fields have the widths of the immediate and of the ports, and rules R94, R150 and R181 accept
every value of them. -/

namespace Sys2Proof

/-- A row of the opcode map of rule R92: `w` is the command iff `w` under the mask equals the pattern. -/
structure OpcodeRow where
  mnemonic : String
  mask     : CmdWord
  pattern  : CmdWord
  deriving DecidableEq, Repr

/-- The opcode map (rule R92). -/
def opcodeRows : List OpcodeRow :=
  [⟨"INIT", 0xFFF, 0x100⟩, ⟨"RESUME", 0xFFF, 0x200⟩, ⟨"PUSH", 0xF00, 0x300⟩,
   ⟨"FINAL", 0xFFF, 0x400⟩, ⟨"SRCERR", 0xFFF, 0x500⟩]

/-- Does a word match a row of the opcode map? -/
def OpcodeRow.matchesWord (r : OpcodeRow) (w : CmdWord) : Bool := w &&& r.mask == r.pattern

/-- Check: a command word is one of the 260 legal words of rule R96, those that match a row. -/
def legalWord (w : CmdWord) : Bool := opcodeRows.any (fun r => r.matchesWord w)

/-- Check: a foreign state is written with 64 digits, 32 bytes (rules R36, R108). -/
def fstateOk (bytes : List Byte) : Bool := bytes.length == 32

/-- Check: an offset fits port ORIGBITS (rule R37). -/
def origbitsOk (n : Nat) : Bool := decide (n < 2 ^ 64)

/-- Check: a pushed byte is 0x00 to 0xFF (rule R99). -/
def byteOk (n : Nat) : Bool := decide (n < 256)

/-- The checks of a listing line. -/
def Listing.wellFormed : Listing → Bool
  | .init => true
  | .resume fs ob => fstateOk fs && origbitsOk ob
  | .push b => byteOk b
  | .final => true
  | .srcerr => true
  | .pushs _ => true
  | .digest _ => true
  | .continuation _ fs ob => fstateOk fs && origbitsOk ob

end Sys2Proof
end

