-- ==== Sys2Proof/Decode.lean ====
section
/-! DEFINITION. Decode (`30_encoding.md` rule R109), total on command words and rejecting by name; the encoder from
the opcode map of rule R92; the expansion of a listing line (rules R99 to R102). -/

namespace Sys2Proof

/-- Why a word is ILLEGAL, by the line of rule R109 that catches it. -/
inductive Illegal where
  /-- `imm8` is not 0 and the opcode is not PUSH's. -/
  | immediateNotZero (op : BitVec 4) (imm8 : Byte)
  /-- `imm8` is 0 and the opcode is 0x0 or 0x6 to 0xF. -/
  | noSuchOpcode (op : BitVec 4)
  deriving DecidableEq, Repr

/-- `op`, bits 11:8 of a command word (rule R90). -/
def opField (w : CmdWord) : BitVec 4 := w.extractLsb' 8 4

/-- `imm8`, bits 7:0 of a command word, used as it stands (rules R90, R94). -/
def immField (w : CmdWord) : Byte := w.extractLsb' 0 8

/-- The decode procedure of rule R109. RESUME takes its operands from the ports (rule R95); no other command
looks at them. -/
def decode (tx : Transaction) : Except Illegal Instr :=
  let op := opField tx.word
  let imm8 := immField tx.word
  if op = 0x3 then .ok (.push imm8)
  else if imm8 ≠ 0 then .error (.immediateNotZero op imm8)
  else if op = 0x1 then .ok .init
  else if op = 0x2 then .ok (.resume tx.fstate tx.origbits)
  else if op = 0x4 then .ok .final
  else if op = 0x5 then .ok .srcerr
  else .error (.noSuchOpcode op)

/-- The command word of an instruction (rule R92). -/
def encodeWord : Instr → CmdWord
  | .init => 0x100
  | .resume _ _ => 0x200
  | .push b => 0x300 ||| b.setWidth 12
  | .final => 0x400
  | .srcerr => 0x500

/-- The transaction that carries an instruction. A command that reads no port is sent with both ports at 0; what
they show has no effect on it (rules R36, R37). -/
def encode (i : Instr) : Transaction :=
  match i with
  | .resume fstate origbits => ⟨encodeWord i, fstate, origbits⟩
  | .init | .push _ | .final | .srcerr => ⟨encodeWord i, 0, 0⟩

/-- The transaction of a word of the opcode table, both operand ports at 0 (the table gives them no bits). The
table's container is 16 bits wide and the command port 12 (rule R90): a number with a higher bit set is no word
of the port (log 10). -/
def tableTransaction (nbits w : Nat) : Option Transaction :=
  let bits := w % 2 ^ nbits
  if bits < 4096 then some ⟨BitVec.ofNat 12 bits, 0, 0⟩ else none

/-- The instruction the decoder reads from a word numbered as spec/opcode_table.json numbers it. -/
def decodeTableWord (nbits w : Nat) : Option Instr :=
  match tableTransaction nbits w with
  | some tx =>
    match decode tx with
    | .ok i => some i
    | .error _ => none
  | none => none

/-- Bytes read as one big-endian number, the first the most significant (rules R61, R130). -/
def beNat (bytes : List Byte) : Nat := bytes.foldl (fun acc b => acc * 256 + b.toNat) 0

/-- The commands a well-formed listing line stands for (rules R99 to R102); none for an ill-formed one. -/
def Listing.expand (l : Listing) : Option (List Instr) :=
  if l.wellFormed then
    match l with
    | .init => some [.init]
    | .resume fs ob => some [.resume (BitVec.ofNat 256 (beNat fs)) (BitVec.ofNat 64 ob)]
    | .push b => some [.push (BitVec.ofNat 8 b)]
    | .final => some [.final]
    | .srcerr => some [.srcerr]
    | .pushs bytes => some (bytes.map Instr.push)
    | .digest bytes => some (.init :: bytes.map Instr.push ++ [.final])
    | .continuation bytes fs ob =>
      some (.resume (BitVec.ofNat 256 (beNat fs)) (BitVec.ofNat 64 ob) :: bytes.map Instr.push ++ [.final])
  else none

/-- Assemble a listing into the transactions the host sends, line by line. -/
def assemble : List Listing → Option (List Transaction)
  | [] => some []
  | l :: rest =>
    match l.expand, assemble rest with
    | some is, some txs => some (is.map encode ++ txs)
    | _, _ => none

end Sys2Proof
end

