-- ==== Sys2Proof/Machine/Operands.lean ====
section
/-! DEFINITION. The operand and result forms: the big-endian converters (`40_primitives.md` rules R130 to R132) and
the layout of the two 256-bit ports (`30_encoding.md` rule R107). The immediate of PUSH is `immField` (rule R94);
ORIGBITS is used whole (rule R37). -/

namespace Sys2Proof.Machine

/-- BE32_DECODE (rule R130): the byte that stands first is the most significant. -/
def be32dec (b0 b1 b2 b3 : Byte) : Word := b0 ++ b1 ++ b2 ++ b3

/-- BE32_ENCODE (rule R131): four bytes, the most significant first. -/
def be32enc (w : Word) : Vector Byte 4 :=
  #v[w.extractLsb' 24 8, w.extractLsb' 16 8, w.extractLsb' 8 8, w.extractLsb' 0 8]

/-- BE64_ENCODE (rule R132): eight bytes, the most significant first. -/
def be64enc (v : Len) : Vector Byte 8 :=
  #v[v.extractLsb' 56 8, v.extractLsb' 48 8, v.extractLsb' 40 8, v.extractLsb' 32 8,
     v.extractLsb' 24 8, v.extractLsb' 16 8, v.extractLsb' 8 8, v.extractLsb' 0 8]

/-- Word `i` (0..7) of a 256-bit port: bits 255-32i : 224-32i (rules R107, R181). -/
def portWord (p : Port) (i : Fin 8) : Word := p.extractLsb' (224 - 32 * i.val) 32

/-- Byte `j` (0..31) of a 256-bit port: bits 255-8j : 248-8j (rules R33, R36, R107). -/
def portByte (p : Port) (j : Fin 32) : Byte := p.extractLsb' (248 - 8 * j.val) 8

/-- The 256-bit port value of 32 bytes: read as one number, the bytes read big-endian (rule R107). -/
def portOfBytes (d : Vector Byte 32) : Port := BitVec.ofNat 256 (beNat d.toList)

/-- The eight words of a foreign state (rules R107, R181). -/
def parseState (p : Port) : Vector Word 8 := Vector.ofFn (portWord p)

/-- Digest byte `4i+k` is bits 31-8k : 24-8k of `H[i]` (rules R107, R188). Irreducible, so that comparing two states
does not unfold 32 bytes; the kernel evaluates it as it stands. -/
@[irreducible] def serializeState (h : Vector Word 8) : Vector Byte 32 :=
  Vector.ofFn (fun j : Fin 32 => (be32enc h[j.val / 4])[j.val % 4])

end Sys2Proof.Machine
end

