-- ==== Sys2Proof/Config.lean ====
section
/-! DEFINITION. The fixed sizes of `00_scope.md` rule R6 and the free values. No parameter is left to the model
(rule R7). A free value is a constant with no body: nothing can be proved of which value it is. Each is applied
to the number of the draw, so that two draws are independent. -/

namespace Sys2Proof

/-- BLOCK_BYTES (rule R6). -/
def Config.blockBytes : Nat := 64

/-- PAD_ONE_BLOCK_MAX, the largest `partial` that pads in one block (rule R6). -/
def Config.padOneBlockMax : Nat := 55

/-- Where the length field stands in the last block: its final 8 bytes (rules R6, R157). -/
def Config.lenFieldAt : Nat := 56

/-- Free contents of H (log 4, log 7). -/
opaque Config.freeH : Nat → Vector Word 8

/-- Free contents of V (log 4, log 7). -/
opaque Config.freeV : Nat → Vector Word 8

/-- Free contents of T (log 4). -/
opaque Config.freeT : Nat → BitVec 6

/-- Free contents of W (log 4, log 7). -/
opaque Config.freeW : Nat → Vector Word 64

/-- The free contents of the byte of BUF at an address (log 7). -/
opaque Config.freeBuf : Nat → Nat → Byte

/-- Free contents of PTR (log 4). -/
opaque Config.freePtr : Nat → BitVec 6

/-- Free contents of LEN (log 4). -/
opaque Config.freeLen : Nat → Len

/-- Free contents of PADCNT (log 4, log 7). -/
opaque Config.freePadcnt : Nat → BitVec 2

/-- Free contents of DIGEST (log 4, log 7). -/
opaque Config.freeDigest : Nat → Vector Byte 32

end Sys2Proof
end

