-- ==== Sys2Proof/Machine/State.lean ====
section
/-! DEFINITION. The state of one core (`10_state.md` rule R20), as plain data; the reasons a step of the MODEL may
stop; the state after reset (rules R41, R280). The faults of the CORE (`60_exceptions.md` rule R240) are no stops:
they are next states with PHASE and CAUSE written. -/

namespace Sys2Proof.Machine

/-- PHASE, the sequencer register (rule R31). -/
inductive Phase where
  /-- 0: no computation in flight, no digest held. -/
  | idle
  /-- 1: a padder exists and accepts bytes. -/
  | absorb
  /-- 2: DIGEST holds a valid digest. -/
  | done
  /-- 3: a fault was raised; left only by reset. -/
  | fault
  deriving DecidableEq, Repr

/-- CAUSE, the fault cause (rules R32, R240). The codes 6 and 7 are never written and do not exist here (U11). -/
inductive Cause where
  /-- 0: no fault. -/
  | none
  /-- 1, R241. -/
  | sourceReadError
  /-- 2, R243; alias PaddingError. -/
  | paddingInvariantViolation
  /-- 3, R244. -/
  | lengthOverflow
  /-- 4, R245. -/
  | illegalCommand
  /-- 5, R246. -/
  | protocolError
  deriving DecidableEq, Repr

/-- What the host does to the core (rule R290): a command transaction, or the reset event (rule R280). Reading
STATUS or DIGEST has no effect on the core (rule R67) and is no input. -/
inductive HostInput where
  | command (tx : Transaction)
  | reset
  deriving DecidableEq, Repr

/-- BUF, the one byte-addressed memory (rules R10, R26): (address, byte) pairs with strictly rising addresses, all
below 64. An address that is not listed holds no value (rule R42, log 3). -/
abbrev Memory := List Host.Cell

/-- The canonical form of BUF. -/
abbrev Memory.wf (m : Memory) : Prop :=
  m.Pairwise (fun c d => c.1 < d.1) ∧ ∀ c ∈ m, c.1 < 64

/-- The whole state of one core (rule R20), and two fields of the model's own: what the host has still to send
(log 1) and the number of free values drawn so far (log 5). -/
structure State where
  /-- H[0..7], the chaining state (R21). -/
  h      : Vector Word 8
  /-- V[0..7], the working variables a..h (R22). -/
  v      : Vector Word 8
  /-- T, the round and schedule index (R23). -/
  t      : BitVec 6
  /-- W[0..63], the word schedule (R24). -/
  w      : Vector Word 64
  /-- BUF[0..63], the block buffer (R26). -/
  buf    : Memory
  /-- PTR, the bytes held in the current block (R28). -/
  ptr    : BitVec 6
  /-- LEN, the running total bit-length (R29). -/
  len    : Len
  /-- PADCNT, the padding blocks produced in this stream (R30). -/
  padcnt : BitVec 2
  /-- PHASE (R31). -/
  phase  : Phase
  /-- CAUSE (R32). -/
  cause  : Cause
  /-- DIGEST[0..31], the output register (R33). -/
  digest : Vector Byte 32
  /-- The model's own: the host's inputs not yet taken, first one first. -/
  inputs : List HostInput
  /-- The model's own: how many free values have been drawn. -/
  draws  : Nat
  deriving DecidableEq, Repr

/-- Why the MODEL stops. No instruction stops on every path, and no state reached from reset stops. -/
inductive Fault where
  /-- Raised by the reads of BUF (`memRead1`, `memRead4`, hence by E_LOADW inside PUSH and FINAL) at an address
  nothing has written since reset: rule R42 asks for a fault of the model there. Safe: the hardware would go on
  with some byte, and no claim can rest on which. -/
  | unwrittenByte (addr : Nat)
  /-- Raised by the operations on BUF for an access that rule R64 says does not exist (a width and an address no
  rule forms). Safe: nothing in the core can make one. -/
  | noSuchAccess (addr width : Nat)
  deriving DecidableEq, Repr

/-- Why the MODEL has no meaning for an instruction. -/
inductive Refusal where
  /-- An instruction whose arm of `exec` has no meaning yet. Safe: the machine stops. No arm does this. -/
  | notModelled (mnemonic : String)
  deriving DecidableEq, Repr

/-- The machine right after reset (rules R41, R280): PHASE = IDLE, CAUSE = 0, BUF without a value. For the other
elements the spec gives no value and rule R42 forbids zero: every bit is one (log 2, unsafe). The host has sent
nothing yet (log 1). -/
def State.reset : State where
  h      := Vector.replicate 8 (BitVec.allOnes 32)
  v      := Vector.replicate 8 (BitVec.allOnes 32)
  t      := BitVec.allOnes 6
  w      := Vector.replicate 64 (BitVec.allOnes 32)
  buf    := []
  ptr    := BitVec.allOnes 6
  len    := BitVec.allOnes 64
  padcnt := BitVec.allOnes 2
  phase  := .idle
  cause  := .none
  digest := Vector.replicate 32 (BitVec.allOnes 8)
  inputs := []
  draws  := 0

end Sys2Proof.Machine
end

