-- ==== Sys2Proof/Machine/Flags.lean ====
section
/-! DEFINITION. The flag-like state and the outputs. The core has no condition codes (`10_state.md` rule R39): its
flags are PHASE, CAUSE and PADCNT; what the host sees of them is the 5-bit STATUS port (rules R34, R103). Which
commands a phase admits is the table of `43_commands.md` rule R219. -/

namespace Sys2Proof.Machine

/-- The code of PHASE (rule R31). -/
def phaseCode : Phase → BitVec 2
  | .idle => 0
  | .absorb => 1
  | .done => 2
  | .fault => 3

/-- The code of CAUSE (rule R240). -/
def causeCode : Cause → BitVec 3
  | .none => 0
  | .sourceReadError => 1
  | .paddingInvariantViolation => 2
  | .lengthOverflow => 3
  | .illegalCommand => 4
  | .protocolError => 5

/-- The STATUS port: bits 4:2 CAUSE, bits 1:0 PHASE (rules R34, R103). -/
def statusPort (s : State) : BitVec 5 := causeCode s.cause ++ phaseCode s.phase

/-- The DIGEST port: a value exactly in DONE; in every other phase the model gives it none (rules R33, R287). -/
def digestPort (s : State) : Option Port :=
  match s.phase with
  | .done => some (portOfBytes s.digest)
  | .idle | .absorb | .fault => none

/-- The phases that admit INIT and RESUME (rule R219). -/
def startAllowed : Phase → Bool
  | .idle | .done => true
  | .absorb | .fault => false

/-- The phases that admit PUSH, FINAL and SRCERR (rule R219). -/
def streamAllowed : Phase → Bool
  | .absorb => true
  | .idle | .done | .fault => false

/-- Would LEN + 8 no longer fit 64 bits (rules R151, R244)? -/
def lenOverflows (len : Len) : Bool := decide (len.toNat + 8 ≥ 2 ^ 64)

/-- The check of rule R161: one padding block when `p ≤ 55`, two when `p ≥ 56`, and `p` real bytes with `padlen`
padding bytes make up exactly that many blocks. -/
def paddingOk (p padlen : Nat) (padcnt : BitVec 2) : Bool :=
  (decide (p ≤ 55) && padcnt == 1 && decide (p + padlen = 64)) ||
  (decide (p ≥ 56) && padcnt == 2 && decide (p + padlen = 128))

end Sys2Proof.Machine
end

