-- ==== Sys2Proof/Machine/Ops.lean ====
section
/-! DEFINITION. The named operations: access to BUF (`00_scope.md` rule R10, `20_memory.md` rules R60 to R65); taking
a fault of the core, one shared operation (rules R12, R249); the frame of a command (`43_commands.md` rule R210);
the reset event (rule R280); taking the host's next input. -/

namespace Sys2Proof.Machine

/-- How a micro-operation ends a command early: it raises a fault of the core, or the model stops. -/
inductive Trap where
  | raised (c : Cause)
  | stopped (f : Fault)
  deriving DecidableEq, Repr

/-! ### BUF -/

/-- The byte at an address, if it holds one. -/
def Memory.read : Memory → Nat → Option Byte
  | [], _ => none
  | (k, b) :: m, a => if k = a then some b else Memory.read m a

/-- Write a byte, keeping the addresses rising. -/
def Memory.write : Memory → Nat → Byte → Memory
  | [], a, x => [(a, x)]
  | (k, b) :: m, a, x =>
    if a < k then (a, x) :: (k, b) :: m
    else if a = k then (a, x) :: m
    else (k, b) :: Memory.write m a x

/-- Write bytes at consecutive addresses, the first at `a`. Irreducible, so that comparing two memories does not unroll
a fill of 56 bytes. -/
@[irreducible] def Memory.writeBytes (m : Memory) (a : Nat) : List Byte → Memory
  | [] => m
  | b :: bs => Memory.writeBytes (Memory.write m a b) (a + 1) bs

/-- The accesses to BUF that exist (rule R64): one byte anywhere, 4 bytes at a multiple of 4, 8 bytes at 56. -/
def accessExists (addr width : Nat) : Bool :=
  (width == 1 && decide (addr < 64)) ||
  (width == 4 && decide (addr < 64) && decide (addr % 4 = 0)) ||
  (width == 8 && addr == Config.lenFieldAt)

/-- MemRead(addr, 1) of rule R10. -/
def memRead1 (m : Memory) (addr : Nat) : Except Trap Byte :=
  if accessExists addr 1 then
    match m.read addr with
    | some b => .ok b
    | none => .error (.stopped (.unwrittenByte addr))
  else .error (.stopped (.noSuchAccess addr 1))

/-- MemRead(addr, 4) of rules R10, R61 (a): big-endian, from single bytes. -/
def memRead4 (m : Memory) (addr : Nat) : Except Trap Word :=
  if accessExists addr 4 then do
    let b0 ← memRead1 m addr
    let b1 ← memRead1 m (addr + 1)
    let b2 ← memRead1 m (addr + 2)
    let b3 ← memRead1 m (addr + 3)
    .ok (be32dec b0 b1 b2 b3)
  else .error (.stopped (.noSuchAccess addr 4))

/-- MemWrite(addr, 1, v) of rule R10. -/
def memWrite1 (m : Memory) (addr : Nat) (b : Byte) : Except Trap Memory :=
  if accessExists addr 1 then .ok (m.write addr b)
  else .error (.stopped (.noSuchAccess addr 1))

/-- MemWrite(addr, 8, v) of rules R10, R61 (b), R132: big-endian. -/
def memWrite8 (m : Memory) (addr : Nat) (v : Len) : Except Trap Memory :=
  if accessExists addr 8 then .ok (m.writeBytes addr (be64enc v).toList)
  else .error (.stopped (.noSuchAccess addr 8))

/-- How many elements `x[lo .. hi]` has (rule R9); none when `hi < lo`. -/
def rangeCount (lo hi : Nat) : Nat := hi + 1 - lo

/-- `BUF[lo .. hi] <- 0x00` (rule R9): single zero bytes, in ascending order; nothing when `hi < lo`. -/
def zeroFill (m : Memory) (lo hi : Nat) : Except Trap Memory :=
  (List.range' lo (rangeCount lo hi)).foldlM (fun m a => memWrite1 m a 0x00) m

/-! ### Taking a fault of the core -/

/-- The two writes of every `raise` (rules R12, R249): nothing is saved and control goes nowhere. -/
def enterFault (c : Cause) (s : State) : State := { s with phase := .fault, cause := c }

/-- What PaddingInvariantViolation leaves unspecified (rule R243, U6): H, BUF, W, V, PADCNT and DIGEST hold free
values (log 7). -/
def unspecifyPadding (s : State) : State :=
  { s with
    h      := Config.freeH s.draws
    v      := Config.freeV s.draws
    w      := Config.freeW s.draws
    buf    := (List.range Config.blockBytes).map (fun a => (a, Config.freeBuf s.draws a))
    padcnt := Config.freePadcnt s.draws
    digest := Config.freeDigest s.draws
    draws  := s.draws + 1 }

/-- `raise` (rules R12, R249), on the state before the command: every other effect of the command is discarded,
with the one exception of rule R243. -/
def raiseFault (c : Cause) (s : State) : State :=
  match c with
  | .paddingInvariantViolation => enterFault c (unspecifyPadding s)
  | .none | .sourceReadError | .lengthOverflow | .illegalCommand | .protocolError => enterFault c s

/-- How a command that was begun in `s` ends. -/
def settle (s : State) : Except Trap State → Host.Outcome State Fault Refusal
  | .ok t => .next t
  | .error (.raised c) => .next (raiseFault c s)
  | .error (.stopped f) => .fault f

/-- The frame of rule R210 around a decoded command, in the order of rule R250: in FAULT nothing at all happens
(rule R252); a command the phase does not admit raises ProtocolError (rule R246); else it is performed. -/
def runCommand (allowed : Phase → Bool) (body : State → Except Trap State) (s : State) :
    Host.Outcome State Fault Refusal :=
  if s.phase = .fault then .next s
  else if allowed s.phase then settle s (body s)
  else .next (raiseFault .protocolError s)

/-- A word that decodes to nothing (rules R210, R245): IllegalCommand, and in FAULT nothing (rule R252). -/
def illegalCommand (s : State) : Host.Outcome State Fault Refusal :=
  if s.phase = .fault then .next s else .next (raiseFault .illegalCommand s)

/-! ### The reset event -/

/-- The reset event (rule R280): PHASE and CAUSE as after reset, BUF without a value, every other element of the
core holding free contents, which permits an implementation that keeps the old bits and one that clears them (rule
R282, log 4). The host's inputs are not the core's and stay. -/
def resetCore (s : State) : State where
  h      := Config.freeH s.draws
  v      := Config.freeV s.draws
  t      := Config.freeT s.draws
  w      := Config.freeW s.draws
  buf    := []
  ptr    := Config.freePtr s.draws
  len    := Config.freeLen s.draws
  padcnt := Config.freePadcnt s.draws
  phase  := .idle
  cause  := .none
  digest := Config.freeDigest s.draws
  inputs := s.inputs
  draws  := s.draws + 1

/-- The step on a reset event. -/
def resetEvent (s : State) : Host.Outcome State Fault Refusal := .next (resetCore s)

/-! ### The host's inputs -/

/-- What the core finds on its ports (rule R210), with the state in which the input has been taken. -/
inductive Fetched where
  /-- No transaction and no reset: the host idles (rule R97). -/
  | nothing
  | reset (s : State)
  | instr (i : Instr) (s : State)
  | illegal (why : Illegal) (s : State)

/-- Take the host's next input (log 1) and decode it (rule R109). -/
def fetch (s : State) : Fetched :=
  match s.inputs with
  | [] => .nothing
  | .reset :: rest => .reset { s with inputs := rest }
  | .command tx :: rest =>
    match decode tx with
    | .ok i => .instr i { s with inputs := rest }
    | .error why => .illegal why { s with inputs := rest }

/-- A core that receives no command keeps its state unchanged (rule R265, U7). -/
def idleStep (s : State) : Host.Outcome State Fault Refusal := .next s

/-- `s` with a word of the opcode table as the host's next transaction, both operand ports at 0. -/
def offerTableWord (s : State) (nbits w : Nat) : State :=
  match tableTransaction nbits w with
  | some tx => { s with inputs := .command tx :: s.inputs }
  | none => s

end Sys2Proof.Machine
end

