-- ==== Sys2Proof/Machine/Primitives.lean ====
section
/-! DEFINITION. The arithmetic primitives and the mixing functions (`40_primitives.md` rules R120 to R129): pure
functions that write no state, set no flag and raise no fault. -/

namespace Sys2Proof.Machine

/-- ADD32 (rule R120): addition modulo 2^32, the carry out dropped. -/
def add32 (a b : Word) : Word := a + b

/-- ROTR (rule R122), for the amounts 1 to 31 the rules use. -/
def rotr (x : Word) (n : Nat) : Word := (x >>> n) ||| (x <<< (32 - n))

/-- SHR (rule R124): zeros enter at the top. -/
def shr (x : Word) (n : Nat) : Word := x >>> n

/-- The exclusive or of three words, bit by bit (rule R123): what each mixing function and MAJ ends in. -/
def xor3 (a b c : Word) : Word := a ^^^ b ^^^ c

/-- SSIG0 (rule R125). -/
def ssig0 (x : Word) : Word := xor3 (rotr x 7) (rotr x 18) (shr x 3)

/-- SSIG1 (rule R126). -/
def ssig1 (x : Word) : Word := xor3 (rotr x 17) (rotr x 19) (shr x 10)

/-- BSIG0 (rule R127), applied to `a`. -/
def bsig0 (x : Word) : Word := xor3 (rotr x 2) (rotr x 13) (rotr x 22)

/-- BSIG1 (rule R127), applied to `e`. -/
def bsig1 (x : Word) : Word := xor3 (rotr x 6) (rotr x 11) (rotr x 25)

/-- CH (rule R128). -/
def ch (x y z : Word) : Word := (x &&& y) ^^^ (~~~x &&& z)

/-- MAJ (rule R129). -/
def maj (x y z : Word) : Word := xor3 (x &&& y) (x &&& z) (y &&& z)

end Sys2Proof.Machine
end

