-- ==== Sys2Proof/Machine/Rom.lean ====
section
/-! DEFINITION. The two constant tables (`10_state.md` rules R25, R27). They are never written and are no state
(rule R16). Each row of the spec's tables is written as one 256-bit number, its eight words side by side from left to
right, and taken apart in the layout the FSTATE port has (rule R107). -/

namespace Sys2Proof.Machine

/-- The eight words of a table row, the leftmost first. -/
def romRow (row : Port) : Vector Word 8 := Vector.ofFn (portWord row)

/-- `IV[0..7]`, the initialization-vector ROM (rule R27). -/
def ivRom : Vector Word 8 := romRow 0x6a09e667bb67ae853c6ef372a54ff53a510e527f9b05688c1f83d9ab5be0cd19

/-- `K[0..31]`, the first four rows of rule R25. -/
def kRomLow : Vector Word 32 :=
  romRow 0x428a2f9871374491b5c0fbcfe9b5dba53956c25b59f111f1923f82a4ab1c5ed5 ++
  romRow 0xd807aa9812835b01243185be550c7dc372be5d7480deb1fe9bdc06a7c19bf174 ++
  romRow 0xe49b69c1efbe47860fc19dc6240ca1cc2de92c6f4a7484aa5cb0a9dc76f988da ++
  romRow 0x983e5152a831c66db00327c8bf597fc7c6e00bf3d5a7914706ca635114292967

/-- `K[32..63]`, the last four rows of rule R25. -/
def kRomHigh : Vector Word 32 :=
  romRow 0x27b70a852e1b21384d2c6dfc53380d13650a7354766a0abb81c2c92e92722c85 ++
  romRow 0xa2bfe8a1a81a664bc24b8b70c76c51a3d192e819d6990624f40e3585106aa070 ++
  romRow 0x19a4c1161e376c082748774c34b0bcb5391c0cb34ed8aa4a5b9cca4f682e6ff3 ++
  romRow 0x748f82ee78a5636f84c878148cc7020890befffaa4506cebbef9a3f7c67178f2

/-- `K[0..63]`, the round-constant ROM (rule R25): 64 words, one per round (`90_conflicts.md` C1). -/
def kRom : Vector Word 64 := kRomLow ++ kRomHigh

end Sys2Proof.Machine
end

