-- ==== Sys2Proof/Machine/Engine.lean ====
section
/-! DEFINITION. The nine operations of the Digest Engine (`42_engine.md`). They have no encoding (rule R93) and are
invoked by the commands and by the padder. -/

namespace Sys2Proof.Machine

/-- E_INITIV (rule R180): `H[i] <- IV[i]`. -/
def eInitIv (s : State) : State := { s with h := ivRom }

/-- E_PARSE (rule R181): `H[i] <- fs[255-32i : 224-32i]`, every value accepted. -/
def eParse (fs : Port) (s : State) : State := { s with h := parseState fs }

/-- One iteration of E_LOADW (rule R182): `W[t] <- MemRead(4t, 4)`. -/
def eLoadWord (t : Fin 16) (s : State) : Except Trap State := do
  let x ← memRead4 s.buf (4 * t.val)
  .ok { s with w := s.w.set t.val x (Nat.lt_trans t.isLt (by decide)) }

/-- E_LOADW (rule R182): the first 16 words of the schedule are the block's words verbatim. -/
def eLoadW (s : State) : Except Trap State := (List.finRange 16).foldlM (fun s t => eLoadWord t s) s

/-- `T <- t`. -/
def setT (t : Nat) (s : State) : State := { s with t := BitVec.ofNat 6 t }

/-- `W[T - k]`, for the distances `k` of rule R183. -/
def wBack (s : State) (k : Nat) : Word := s.w[s.t.toNat - k]'(Nat.lt_of_le_of_lt (Nat.sub_le _ _) s.t.isLt)

/-- The word E_EXPAND derives for `t = T` (rule R183). -/
def expandWord (s : State) : Word :=
  add32 (add32 (add32 (wBack s 16) (ssig0 (wBack s 15))) (wBack s 7)) (ssig1 (wBack s 2))

/-- E_EXPAND for `t = T`, which E_COMPRESS invokes for 16 to 63 only (rule R183). -/
def eExpand (s : State) : State := { s with w := s.w.set s.t.toNat (expandWord s) s.t.isLt }

/-- E_SEED (rule R184): `V[i] <- H[i]`. -/
def eSeed (s : State) : State := { s with v := s.h }

/-- `T1` of round `T` (rule R185). -/
def roundT1 (s : State) : Word :=
  add32 (add32 (add32 (add32 s.v[7] (bsig1 s.v[4])) (ch s.v[4] s.v[5] s.v[6])) (kRom[s.t.toNat]'s.t.isLt))
    (s.w[s.t.toNat]'s.t.isLt)

/-- `T2` of round `T` (rule R185). -/
def roundT2 (s : State) : Word := add32 (bsig0 s.v[0]) (maj s.v[0] s.v[1] s.v[2])

/-- The working variables after round `T`, all from the values read at its start (rule R185). -/
def roundV (s : State) : Vector Word 8 :=
  #v[add32 (roundT1 s) (roundT2 s), s.v[0], s.v[1], s.v[2], add32 s.v[3] (roundT1 s), s.v[4], s.v[5], s.v[6]]

/-- E_ROUND for `t = T` (rule R185): a simultaneous update of V. -/
def eRound (s : State) : State := { s with v := roundV s }

/-- E_ADDBACK (rule R186): `H[i] <- add32(H[i], V[i])`. -/
def eAddback (s : State) : State := { s with h := Vector.zipWith add32 s.h s.v }

/-- `for T in 16..63: E_EXPAND(T)` (rule R187). -/
def expandAll (s : State) : State := (List.range' 16 48).foldl (fun s t => eExpand (setT t s)) s

/-- `for T in 0..63: E_ROUND(T)` (rule R187). -/
def roundAll (s : State) : State := (List.range 64).foldl (fun s t => eRound (setT t s)) s

/-- E_COMPRESS (rule R187): fold the block in BUF into H. Which micro-operations run, and on which indices, depends
on no data (rule R189). -/
def eCompress (s : State) : Except Trap State := do
  let s ← eLoadW s
  .ok (eAddback (roundAll (eSeed (expandAll s))))

/-- E_SERIALIZE (rule R188): all 32 bytes of DIGEST, big-endian; H is not changed. -/
def eSerialize (s : State) : State := { s with digest := serializeState s.h }

end Sys2Proof.Machine
end

