-- ==== Sys2Proof/Machine/Padder.lean ====
section
/-! DEFINITION. The four operations of the Block Padder (`41_padder.md`). They have no encoding (rule R93). -/

namespace Sys2Proof.Machine

/-- P_NEW (rule R150): construct the padder with an initial bit-length offset, not validated. BUF is not cleared. -/
def pNew (o : Len) (s : State) : State := { s with ptr := 0, len := o, padcnt := 0 }

/-- P_ABSORB (rule R151): take one byte. The overflow is checked first; the byte that completes a block has it
compressed. -/
def pAbsorb (b : Byte) (s : State) : Except Trap State :=
  if lenOverflows s.len then .error (.raised .lengthOverflow)
  else do
    let m ← memWrite1 s.buf s.ptr.toNat b
    let s := { s with buf := m, len := s.len + 8 }
    if s.ptr = 63 then do
      let s ← eCompress s
      .ok { s with ptr := 0 }
    else .ok { s with ptr := s.ptr + 1 }

/-- Hand a padding block to the engine and count it (rules R30, R153). -/
def padBlock (s : State) : Except Trap State := do
  let s ← eCompress s
  .ok { s with padcnt := s.padcnt + 1 }

/-- The one-block case of P_PAD (rule R155), after the marker: zero bytes up to index 55, the length field. -/
def padOne (p : Nat) (l : Len) (s : State) : Except Trap State := do
  let m ← zeroFill s.buf (p + 1) Config.padOneBlockMax
  let m ← memWrite8 m Config.lenFieldAt l
  padBlock { s with buf := m }

/-- The two-block case of P_PAD (rule R156), after the marker: the block is zero-filled to its end and handed over,
then a block of 56 zero bytes and the length field. -/
def padTwo (p : Nat) (l : Len) (s : State) : Except Trap State := do
  let m ← zeroFill s.buf (p + 1) 63
  let s ← padBlock { s with buf := m }
  let m ← zeroFill s.buf 0 Config.padOneBlockMax
  let m ← memWrite8 m Config.lenFieldAt l
  padBlock { s with buf := m }

/-- How many bytes P_PAD writes with `p` real bytes in the block: the marker, the zero bytes of the ranges it
fills, the 8 bytes of the length field (rules R153, R161). -/
def padLength (p : Nat) : Nat :=
  if p ≤ Config.padOneBlockMax then 1 + rangeCount (p + 1) Config.padOneBlockMax + 8
  else 1 + rangeCount (p + 1) 63 + rangeCount 0 Config.padOneBlockMax + 8

/-- The padding decision (rule R158): one block or two. -/
def padBlocks (p : Nat) (l : Len) (s : State) : Except Trap State :=
  if p ≤ Config.padOneBlockMax then padOne p l s else padTwo p l s

/-- P_PAD (rule R153): the marker at index PTR in either case (rule R154), one or two padding blocks, then the
fail-fast check (rule R161). PTR and LEN are read once, at the start. -/
def pPad (s : State) : Except Trap State := do
  let m ← memWrite1 s.buf s.ptr.toNat 0x80
  let t ← padBlocks s.ptr.toNat s.len { s with buf := m }
  if paddingOk s.ptr.toNat (padLength s.ptr.toNat) t.padcnt then .ok t
  else .error (.raised .paddingInvariantViolation)

/-- P_END (rule R160): end of sequence; no state of its own is written. -/
def pEnd (s : State) : State := s

end Sys2Proof.Machine
end

