-- ==== Sys2Proof/Machine/Commands.lean ====
section
/-! DEFINITION. The meanings of the five commands (`43_commands.md` rules R211 to R215), each inside the frame of
rule R210. -/

namespace Sys2Proof.Machine

/-- `PHASE <- p`, the last effect of a command (rule R31). -/
def setPhase (p : Phase) (s : State) : State := { s with phase := p }

/-- INIT (rule R211): the offset is 0 whatever ORIGBITS shows. -/
def execInit (s : State) : Host.Outcome State Fault Refusal :=
  runCommand startAllowed (fun s => .ok (setPhase .absorb (pNew 0 (eInitIv s)))) s

/-- RESUME (rule R212): neither operand is validated. -/
def execResume (fstate : Port) (origbits : Len) (s : State) : Host.Outcome State Fault Refusal :=
  runCommand startAllowed (fun s => .ok (setPhase .absorb (pNew origbits (eParse fstate s)))) s

/-- PUSH (rule R213): PHASE stays ABSORB. -/
def execPush (b : Byte) (s : State) : Host.Outcome State Fault Refusal :=
  runCommand streamAllowed (pAbsorb b) s

/-- FINAL (rule R214): pad, finish, publish. -/
def execFinal (s : State) : Host.Outcome State Fault Refusal :=
  runCommand streamAllowed (fun s => do
    let s ← pPad s
    .ok (setPhase .done (eSerialize (pEnd s)))) s

/-- SRCERR (rule R215): SourceReadError, always. -/
def execSrcerr (s : State) : Host.Outcome State Fault Refusal :=
  runCommand streamAllowed (fun _ => .error (.raised .sourceReadError)) s

end Sys2Proof.Machine
end

