-- ==== Sys2Proof/Machine/Dispatch.lean ====
section
/-! DEFINITION. One arm per command, each a direct call of its meaning. -/

namespace Sys2Proof.Machine

/-- Execute one decoded command (`43_commands.md` rule R210). -/
def exec (i : Instr) (s : State) : Host.Outcome State Fault Refusal :=
  match i with
  | .init => Sys2Proof.Machine.execInit s
  | .resume fstate origbits => Sys2Proof.Machine.execResume fstate origbits s
  | .push b => Sys2Proof.Machine.execPush b s
  | .final => Sys2Proof.Machine.execFinal s
  | .srcerr => Sys2Proof.Machine.execSrcerr s

end Sys2Proof.Machine
end

