-- ==== Sys2Proof/Machine/Step.lean ====
section
/-! DEFINITION. The step of the core (`43_commands.md` rule R210) on the host's next input. -/

namespace Sys2Proof.Machine

/-- One step: the host's next input is taken, and a command is decoded and executed whole (rules R13, R66). -/
def step (s : State) : Host.Outcome State Fault Refusal :=
  match fetch s with
  | .nothing => idleStep s
  | .reset t => resetEvent t
  | .instr i t => exec i t
  | .illegal _ t => illegalCommand t

/-- `s` with the opcode-table word `w` offered as the host's next transaction (log 1). -/
def State.withFetchWord (s : State) (nbits w : Nat) : State := offerTableWord s nbits w

end Sys2Proof.Machine
end

