-- ==== Sys2Proof/Safety.lean ====
section
/-! DEFINITION. The terms claims are made in: the core's functions without its registers (`41_padder.md` rule R163,
`42_engine.md` rules R187, R190), what states a run can meet (`Inv`), what the host can see (`Alike`), and command
sequences sent to the core (`43_commands.md` rules R216, R217). -/

namespace Sys2Proof.Safety

open Sys2Proof.Machine

/-! ### The compression function (rule R187), on lists -/

/-- The words of a block, verbatim (rule R182). -/
def blockWords : List Byte → List Word
  | b0 :: b1 :: b2 :: b3 :: rest => be32dec b0 b1 b2 b3 :: blockWords rest
  | _ => []

/-- The next schedule word from the words so far (rule R183). -/
def nextWord (ws : List Word) : Word :=
  let n := ws.length
  add32 (add32 (add32 (ws.getD (n - 16) 0) (ssig0 (ws.getD (n - 15) 0))) (ws.getD (n - 7) 0))
    (ssig1 (ws.getD (n - 2) 0))

/-- Derive `k` more words. -/
def extendSchedule : Nat → List Word → List Word
  | 0, ws => ws
  | k + 1, ws => extendSchedule k (ws ++ [nextWord ws])

/-- The 64-word schedule of a block (rules R182, R183). -/
def schedule (block : List Byte) : List Word := extendSchedule 48 (blockWords block)

/-- The working variables under the names of rule R22. -/
structure Vars where
  a : Word
  b : Word
  c : Word
  d : Word
  e : Word
  f : Word
  g : Word
  h : Word
  deriving DecidableEq, Repr

/-- The working variables seeded from a chaining state (rule R184). -/
def seedVars (v : Vector Word 8) : Vars where
  a := v[0]
  b := v[1]
  c := v[2]
  d := v[3]
  e := v[4]
  f := v[5]
  g := v[6]
  h := v[7]

/-- One round with its constant and its schedule word (rule R185). -/
def roundVars (x : Vars) (kw : Word × Word) : Vars :=
  let t1 := add32 (add32 (add32 (add32 x.h (bsig1 x.e)) (ch x.e x.f x.g)) kw.1) kw.2
  let t2 := add32 (bsig0 x.a) (maj x.a x.b x.c)
  { a := add32 t1 t2, b := x.a, c := x.b, d := x.c, e := add32 x.d t1, f := x.e, g := x.f, h := x.g }

/-- The working variables in their order in V (rule R22). -/
def Vars.words (x : Vars) : Vector Word 8 := #v[x.a, x.b, x.c, x.d, x.e, x.f, x.g, x.h]

/-- Fold the working variables into the state (rule R186). -/
def addVars (h : Vector Word 8) (x : Vars) : Vector Word 8 := Vector.zipWith add32 h x.words

/-- `compress(h, block)` of rule R187: the new chaining state from the old one and a block of 64 bytes. Irreducible,
so that comparing two states does not unfold 64 rounds. -/
@[irreducible] def compress (h : Vector Word 8) (block : List Byte) : Vector Word 8 :=
  addVars h ((kRom.toList.zip (schedule block)).foldl roundVars (seedVars h))

/-! ### Padding and the engine as a function -/

/-- The zero bytes of the padding (rules R106, R163). -/
def zeroBytes (n : Nat) : Nat := if n % 64 ≤ 55 then 55 - n % 64 else 119 - n % 64

/-- `pad(o, n)` of rule R163. -/
def pad (o n : Nat) : List Byte :=
  0x80 :: (List.replicate (zeroBytes n) 0x00 ++ (be64enc (BitVec.ofNat 64 (o + 8 * n))).toList)

/-- `padded(o, m)` of rule R163. -/
def padded (o : Nat) (m : List Byte) : List Byte := m ++ pad o m.length

/-- The first `k` blocks of 64 bytes. -/
def takeBlocks : Nat → List Byte → List (List Byte)
  | 0, _ => []
  | k + 1, l => l.take 64 :: takeBlocks k (l.drop 64)

/-- Cut into consecutive 64-byte blocks (rule R163). -/
def blocks (l : List Byte) : List (List Byte) := takeBlocks (l.length / 64) l

/-- The chaining state after some blocks (rule R190). -/
def foldBlocks (h : Vector Word 8) (l : List Byte) : Vector Word 8 := (blocks l).foldl compress h

/-- `run(h0, o, m)` of rule R190, as the 256-bit value of the DIGEST port. -/
def runEngine (h0 : Vector Word 8) (o : Nat) (m : List Byte) : Port :=
  portOfBytes (serializeState (foldBlocks h0 (padded o m)))

/-- `digest(m)` of rules R190, R216. -/
def digest (m : List Byte) : Port := runEngine ivRom 0 m

/-- `continueDigest(x, fs, ob)` of rules R190, R217. -/
def continueDigest (x : List Byte) (fs : Port) (ob : Nat) : Port := runEngine (parseState fs) ob x

/-- The offset to pass for an extension of a message of `n` bytes: the bit-length of the padded prefix (rule
R223). -/
def paddedBits (n : Nat) : Nat := 8 * (n + (pad 0 n).length)

/-! ### BUF as a block -/

/-- BUF holds these bytes from index 0 on. -/
def HoldsBytes (m : Memory) (bytes : List Byte) : Prop := ∀ i b, bytes[i]? = some b → m.read i = some b

/-- Every byte of BUF below an index has been written. -/
def WrittenBelow (m : Memory) (n : Nat) : Prop := ∀ a, a < n → (m.read a).isSome = true

/-! ### What every run keeps -/

/-- The invariant of the core. -/
structure Inv (s : State) : Prop where
  /-- BUF keeps its canonical form. -/
  bufWf : s.buf.wf
  /-- CAUSE is non-zero exactly in FAULT (rule R103). -/
  causeIff : s.cause = .none ↔ s.phase ≠ .fault
  /-- The padding fault never fires (rule R161). -/
  noPaddingFault : s.cause ≠ .paddingInvariantViolation
  /-- In a stream no padding block has been produced (rules R30, R150, R153). -/
  padcntZero : s.phase = .absorb → s.padcnt = 0
  /-- In a stream every byte of the partial block has been written (rules R28, R42). -/
  written : s.phase = .absorb → WrittenBelow s.buf s.ptr.toNat
  /-- In DONE one or two padding blocks were produced, as PTR decides (rules R158, R161). -/
  padcntDone : s.phase = .done → s.padcnt = if s.ptr.toNat ≤ 55 then 1 else 2
  /-- In DONE the digest held is the serialised chaining state (rule R188). -/
  digestDone : s.phase = .done → s.digest = serializeState s.h

/-- Two states the host cannot tell apart, now or later: they agree on PHASE, CAUSE and what the host has still to
send; in ABSORB on H, PTR, LEN, PADCNT and the bytes of the partial block; in DONE on DIGEST. Nothing is asked of
V, T, W, of the rest of BUF, or of any element before a rule of the same computation has written it (rules R40,
R42). -/
structure Alike (s t : State) : Prop where
  phase  : s.phase = t.phase
  cause  : s.cause = t.cause
  inputs : s.inputs = t.inputs
  h      : s.phase = .absorb → s.h = t.h
  ptr    : s.phase = .absorb → s.ptr = t.ptr
  len    : s.phase = .absorb → s.len = t.len
  padcnt : s.phase = .absorb → s.padcnt = t.padcnt
  bytes  : s.phase = .absorb → ∀ a, a < s.ptr.toNat → s.buf.read a = t.buf.read a
  digest : s.phase = .done → s.digest = t.digest

/-! ### The phase table -/

/-- Rule R219: PHASE after a command and the fault it raises, if any; `overflow` says whether LEN + 8 would reach
2^64. -/
def phaseTable (i : Instr) (p : Phase) (overflow : Bool) : Phase × Option Cause :=
  match p, i with
  | .idle, .init | .idle, .resume _ _ | .done, .init | .done, .resume _ _ => (.absorb, none)
  | .idle, .push _ | .idle, .final | .idle, .srcerr => (.fault, some .protocolError)
  | .done, .push _ | .done, .final | .done, .srcerr => (.fault, some .protocolError)
  | .absorb, .init | .absorb, .resume _ _ => (.fault, some .protocolError)
  | .absorb, .push _ => if overflow then (.fault, some .lengthOverflow) else (.absorb, none)
  | .absorb, .final => (.done, none)
  | .absorb, .srcerr => (.fault, some .sourceReadError)
  | .fault, .init | .fault, .resume _ _ | .fault, .push _ | .fault, .final | .fault, .srcerr => (.fault, none)

/-! ### Command sequences -/

/-- The host's transactions for a list of commands. -/
def commands (is : List Instr) : List HostInput := is.map (fun i => .command (encode i))

/-- What a state becomes when the host sends these inputs, one step for each. -/
def send (s : State) (is : List HostInput) : Host.Outcome State Fault Refusal :=
  Host.Core.run Sys2Proof.core is.length { s with inputs := is }

/-- The pseudo-instruction DIGEST (rules R101, R216). -/
def digestSequence (m : List Byte) : List Instr := .init :: m.map Instr.push ++ [.final]

/-- The pseudo-instruction CONTINUE (rules R102, R217). -/
def continueSequence (x : List Byte) (fs : Port) (ob : Len) : List Instr :=
  .resume fs ob :: x.map Instr.push ++ [.final]

/-- A phase in which a computation may be started (rule R219). -/
def MayStart (s : State) : Prop := s.phase = .idle ∨ s.phase = .done

end Sys2Proof.Safety
end

