-- ==== Sys2Proof/Certificates/Slice0/Obligations.lean ====
section
/-! DEFINITION. The statements for the provers. Each docstring names the rules of spec/ it formalises and, where a
clause rests on a choice of the model, the entry of the assumption log. -/

section

open Sys2Proof Sys2Proof.Machine Sys2Proof.Safety

/-! ### Decode and the step -/

/-- Rule R92: a word is a command iff it matches the command's row of the opcode map; RESUME takes its operands from
the ports, PUSH its byte from bits 7:0. -/
def Obligations.DecodeMatchesOpcodeMap : Prop :=
  ∀ tx : Transaction,
    (decode tx = .ok .init ↔ tx.word &&& 0xFFF = 0x100) ∧
    (∀ fs ob, decode tx = .ok (.resume fs ob) ↔
      tx.word &&& 0xFFF = 0x200 ∧ fs = tx.fstate ∧ ob = tx.origbits) ∧
    (∀ b, decode tx = .ok (.push b) ↔ tx.word &&& 0xF00 = 0x300 ∧ b = tx.word.setWidth 8) ∧
    (decode tx = .ok .final ↔ tx.word &&& 0xFFF = 0x400) ∧
    (decode tx = .ok .srcerr ↔ tx.word &&& 0xFFF = 0x500)

/-- Rule R96: which words are illegal, how many are legal, and that an illegal word raises IllegalCommand in every
phase but FAULT, where it is ignored. -/
def Obligations.IllegalWordsRejected : Prop :=
  (∀ tx : Transaction, (∃ why, decode tx = .error why) ↔
    (tx.word.extractLsb' 8 4 = 0x0 ∨ 0x6 ≤ tx.word.extractLsb' 8 4) ∨
    ((tx.word.extractLsb' 8 4 = 0x1 ∨ tx.word.extractLsb' 8 4 = 0x2 ∨ tx.word.extractLsb' 8 4 = 0x4 ∨
        tx.word.extractLsb' 8 4 = 0x5) ∧ tx.word.extractLsb' 0 8 ≠ 0)) ∧
  ((List.range 4096).filter (fun n => (decode ⟨BitVec.ofNat 12 n, 0, 0⟩).toBool)).length = 260 ∧
  (∀ (s : State) (tx : Transaction) (rest : List HostInput), s.inputs = .command tx :: rest →
    (∃ why, decode tx = .error why) →
    (s.phase ≠ .fault → ∃ t, step s = .next t ∧ t.phase = .fault ∧ t.cause = .illegalCommand) ∧
    (s.phase = .fault → step s = .next { s with inputs := rest }))

/-- Rule R245: a word with `op` 0x0 or 0x6 to 0xF, or with `op` 0x1, 0x2, 0x4 or 0x5 and `imm8` not 0, raises
IllegalCommand in IDLE, ABSORB and DONE, and PHASE and CAUSE alone change; STATUS shows code 4. -/
def Obligations.IllegalCommandEntry : Prop :=
  ∀ (s : State) (tx : Transaction) (rest : List HostInput), s.inputs = .command tx :: rest →
    (s.phase = .idle ∨ s.phase = .absorb ∨ s.phase = .done) →
    ((tx.word.extractLsb' 8 4 = 0x0 ∨ 0x6 ≤ tx.word.extractLsb' 8 4) ∨
      ((tx.word.extractLsb' 8 4 = 0x1 ∨ tx.word.extractLsb' 8 4 = 0x2 ∨ tx.word.extractLsb' 8 4 = 0x4 ∨
          tx.word.extractLsb' 8 4 = 0x5) ∧ tx.word.extractLsb' 0 8 ≠ 0)) →
    ∃ t, t = { s with inputs := rest, phase := .fault, cause := .illegalCommand } ∧ step s = .next t ∧
      statusPort t = 0x13

/-- Rules R92, R109: decoding an encoded command gives it back, with every operand at every value; and a word that
decodes to a command is that command's own word, with the operands of RESUME those of the ports. -/
def Obligations.EncodeDecodeRoundTrip : Prop :=
  (∀ i : Instr, decode (encode i) = .ok i) ∧
  (∀ (tx : Transaction) (i : Instr), decode tx = .ok i →
    encodeWord i = tx.word ∧ (opField tx.word = 0x2 → encode i = tx)) ∧
  (∀ i j : Instr, encode i = encode j → i = j)

/-- Words written out from the examples of rule R109 and of `95_test_vectors.md` V7. -/
def Obligations.SpecWordsDecode : Prop :=
  decode ⟨0x100, 0, 0⟩ = .ok .init ∧ decode ⟨0x200, 5, 7⟩ = .ok (.resume 5 7) ∧
  decode ⟨0x300, 0, 0⟩ = .ok (.push 0x00) ∧ decode ⟨0x361, 0, 0⟩ = .ok (.push 0x61) ∧
  decode ⟨0x3ff, 0, 0⟩ = .ok (.push 0xff) ∧ decode ⟨0x400, 0, 0⟩ = .ok .final ∧
  decode ⟨0x500, 0, 0⟩ = .ok .srcerr ∧ decode ⟨0x000, 0, 0⟩ = .error (.noSuchOpcode 0x0) ∧
  decode ⟨0x401, 0, 0⟩ = .error (.immediateNotZero 0x4 0x01) ∧
  decode ⟨0x6ff, 0, 0⟩ = .error (.immediateNotZero 0x6 0xff)

/-- Rules R210, R13: the step takes the host's next transaction (log 1) and is `exec` of the command it decodes to,
on the state in which the transaction has been taken; nothing else is added around it. -/
def Obligations.StepRunsDecodedCommand : Prop :=
  ∀ (s : State) (tx : Transaction) (rest : List HostInput) (i : Instr), s.inputs = .command tx :: rest →
    decode tx = .ok i → step s = exec i { s with inputs := rest }

/-- A word of the opcode table offered as the next transaction (log 1, log 10) is run by the very next step. -/
def Obligations.OfferedTableWordRuns : Prop :=
  ∀ (s : State) (nbits w : Nat) (i : Instr), decodeTableWord nbits w = some i →
    step (s.withFetchWord nbits w) = exec i s

/-- Rule R280: after the reset event, from any phase, PHASE is IDLE and CAUSE 0, STATUS is 0, the DIGEST port has no
value and no byte of BUF has one. That the other elements then hold some free value is the model's choice (log 4). -/
def Obligations.ResetEventLeavesIdle : Prop :=
  ∀ (s : State) (rest : List HostInput), s.inputs = .reset :: rest →
    ∃ t, step s = .next t ∧ t.phase = .idle ∧ t.cause = .none ∧ t.inputs = rest ∧ statusPort t = 0 ∧
      digestPort t = none ∧ ∀ a, t.buf.read a = none

/-- Rules R41, R282: the state after reset as the host sees it, and that the only commands that do not fault in it
are INIT and RESUME. (BUF without a value and no input pending are log 3 and log 1.) -/
def Obligations.ResetStateOutputs : Prop :=
  State.reset.phase = .idle ∧ State.reset.cause = .none ∧ statusPort State.reset = 0 ∧
  digestPort State.reset = none ∧ State.reset.inputs = [] ∧ (∀ a, State.reset.buf.read a = none) ∧
  ∀ i, ∃ t, exec i State.reset = .next t ∧
    (t.phase = .fault ↔ ¬ (i = .init ∨ ∃ fs ob, i = .resume fs ob))

/-- Rule R265 (and U7): a core that receives no command keeps its state. -/
def Obligations.NoInputNoChange : Prop := ∀ s : State, s.inputs = [] → step s = .next s

/-- Rule R252: in FAULT every command word, legal or not, is ignored; STATUS stays 0x03 + 4·CAUSE, DIGEST stays
invalid, and the reset event alone leaves FAULT. -/
def Obligations.FaultPhaseIsSticky : Prop :=
  ∀ s : State, s.phase = .fault →
    (∀ tx rest, s.inputs = .command tx :: rest → step s = .next { s with inputs := rest }) ∧
    (statusPort s).toNat = 3 + 4 * (causeCode s.cause).toNat ∧ digestPort s = none ∧
    (∀ t, step s = .next t → t.phase ≠ .fault → ∃ rest, s.inputs = .reset :: rest) ∧
    (∀ rest, s.inputs = .reset :: rest → ∃ t, step s = .next t ∧ t.phase = .idle ∧ t.cause = .none)

/-- Rule R250: at most one fault per command, in the fixed order: nothing in FAULT; IllegalCommand from decoding
alone; ProtocolError from the command and PHASE; then the command's own fault. The reset event outranks everything. -/
def Obligations.FaultPriority : Prop :=
  (∀ (s : State) (tx : Transaction) (rest : List HostInput), s.inputs = .command tx :: rest →
    (s.phase = .fault → step s = .next { s with inputs := rest }) ∧
    (s.phase ≠ .fault → (∃ why, decode tx = .error why) →
      ∃ t, step s = .next t ∧ t.phase = .fault ∧ t.cause = .illegalCommand) ∧
    (∀ i, s.phase ≠ .fault → decode tx = .ok i →
      ((i = .init ∨ ∃ fs ob, i = .resume fs ob) ∧ s.phase = .absorb ∨
        ¬ (i = .init ∨ ∃ fs ob, i = .resume fs ob) ∧ s.phase ≠ .absorb) →
      ∃ t, step s = .next t ∧ t.phase = .fault ∧ t.cause = .protocolError) ∧
    (∀ i t, s.phase = .absorb → decode tx = .ok i → step s = .next t → t.phase = .fault →
      t.cause = match i with
        | .init => .protocolError
        | .resume _ _ => .protocolError
        | .push _ => .lengthOverflow
        | .final => .paddingInvariantViolation
        | .srcerr => .sourceReadError)) ∧
  (∀ (s : State) (rest : List HostInput), s.inputs = .reset :: rest →
    ∃ t, step s = .next t ∧ t.phase = .idle ∧ t.cause = .none)

/-- Rule R219: the phase table, every row and column, in the states a run can meet: the five commands, an illegal
word, the reset event. FINAL in ABSORB never ends in the padding fault. -/
def Obligations.PhaseTransitionTable : Prop :=
  ∀ s : State, Inv s →
    (∀ i, ∃ t, exec i s = .next t ∧
      t.phase = (phaseTable i s.phase (decide (s.len.toNat + 8 ≥ 2 ^ 64))).1 ∧
      t.cause = ((phaseTable i s.phase (decide (s.len.toNat + 8 ≥ 2 ^ 64))).2).getD s.cause) ∧
    (∀ tx rest, s.inputs = .command tx :: rest → (∃ why, decode tx = .error why) →
      ∃ t, step s = .next t ∧ t.phase = .fault ∧
        t.cause = if s.phase = .fault then s.cause else .illegalCommand) ∧
    (∀ rest, s.inputs = .reset :: rest → ∃ t, step s = .next t ∧ t.phase = .idle)

/-! ### The five commands -/

/-- Rule R211: INIT in IDLE and DONE, with every other element as before, no digest being visible afterwards;
ProtocolError in ABSORB; nothing in FAULT; IllegalCommand with `imm8` not 0; the ports are not read. -/
def Obligations.InitCommand : Prop :=
  (∀ s : State, MayStart s →
    ∃ t, t = { s with h := ivRom, ptr := 0, len := 0, padcnt := 0, phase := .absorb } ∧ exec .init s = .next t ∧
      digestPort t = none) ∧
  (∀ s : State, s.phase = .absorb → exec .init s = .next { s with phase := .fault, cause := .protocolError }) ∧
  (∀ s : State, s.phase = .fault → exec .init s = .next s) ∧
  (∀ fs ob, decode ⟨0x100, fs, ob⟩ = .ok .init) ∧
  (∀ (s : State) (tx : Transaction) (rest : List HostInput), s.inputs = .command tx :: rest → s.phase ≠ .fault →
    tx.word.extractLsb' 8 4 = 0x1 → tx.word.extractLsb' 0 8 ≠ 0 →
    step s = .next { s with inputs := rest, phase := .fault, cause := .illegalCommand })

/-- Rule R212: RESUME in IDLE and DONE takes H from FSTATE, word `i` from bits 255-32i : 224-32i, and LEN from
ORIGBITS, with every other element as before; ProtocolError in ABSORB; nothing in FAULT; IllegalCommand with `imm8`
not 0;
the serialised IV with offset 0 is INIT; with an offset of 2^64 - 8 or more the first PUSH overflows and FINAL
succeeds. -/
def Obligations.ResumeCommand : Prop :=
  (∀ (s : State) (fs : Port) (ob : Len), MayStart s →
    ∃ h : Vector Word 8, (∀ i, (hi : i < 8) → h[i] = fs.extractLsb' (224 - 32 * i) 32) ∧
      exec (.resume fs ob) s = .next { s with h := h, ptr := 0, len := ob, padcnt := 0, phase := .absorb }) ∧
  (∀ (s : State) (fs : Port) (ob : Len), s.phase = .absorb →
    exec (.resume fs ob) s = .next { s with phase := .fault, cause := .protocolError }) ∧
  (∀ (s : State) (fs : Port) (ob : Len), s.phase = .fault → exec (.resume fs ob) s = .next s) ∧
  (∀ fs ob, decode ⟨0x200, fs, ob⟩ = .ok (.resume fs ob)) ∧
  (∀ (s : State) (tx : Transaction) (rest : List HostInput), s.inputs = .command tx :: rest → s.phase ≠ .fault →
    tx.word.extractLsb' 8 4 = 0x2 → tx.word.extractLsb' 0 8 ≠ 0 →
    step s = .next { s with inputs := rest, phase := .fault, cause := .illegalCommand }) ∧
  (∀ s : State, exec (.resume (portOfBytes (serializeState ivRom)) 0) s = exec .init s) ∧
  (∀ (s : State) (fs : Port) (ob : Len), MayStart s → 2 ^ 64 - 8 ≤ ob.toNat →
    ∃ t, exec (.resume fs ob) s = .next t ∧
      (∀ b, ∃ u, exec (.push b) t = .next u ∧ u.cause = .lengthOverflow) ∧
      ∃ u, exec .final t = .next u ∧ u.phase = .done)

/-- Rules R151, R213: PUSH in ABSORB. Overflow is checked first and writes nothing but PHASE and CAUSE. Inside a block
the byte goes to `BUF[PTR]`, LEN grows by 8, PTR by 1. The byte that completes a block has the block compressed and
PTR returns to 0; W, V and T are scratch. The low three bits of LEN never change. Out of phase: ProtocolError; in
FAULT: nothing. -/
def Obligations.PushCommand : Prop :=
  ∀ (s : State) (b : Byte),
    (s.phase = .absorb → s.len.toNat + 8 ≥ 2 ^ 64 →
      exec (.push b) s = .next { s with phase := .fault, cause := .lengthOverflow }) ∧
    (s.phase = .absorb → s.len.toNat + 8 < 2 ^ 64 → s.ptr ≠ 63 →
      exec (.push b) s =
        .next { s with buf := s.buf.write s.ptr.toNat b, len := s.len + 8, ptr := s.ptr + 1 }) ∧
    (∀ bs : List Byte, s.phase = .absorb → s.len.toNat + 8 < 2 ^ 64 → s.ptr = 63 → bs.length = 63 →
      HoldsBytes s.buf bs →
      ∃ w v x, exec (.push b) s =
        .next { s with h := compress s.h (bs ++ [b]), w := w, v := v, t := x, buf := s.buf.write 63 b,
                       len := s.len + 8, ptr := 0 }) ∧
    (s.len + 8).toNat % 8 = s.len.toNat % 8 ∧
    (MayStart s → exec (.push b) s = .next { s with phase := .fault, cause := .protocolError }) ∧
    (s.phase = .fault → exec (.push b) s = .next s)

/-- Rules R65, R151, R213: what PUSH leaves unchanged. The one byte stored to is `BUF[PTR]`. -/
def Obligations.PushFrame : Prop :=
  ∀ (s t : State) (b : Byte), exec (.push b) s = .next t →
    t.padcnt = s.padcnt ∧ t.digest = s.digest ∧ t.inputs = s.inputs ∧ t.draws = s.draws ∧
    (s.ptr ≠ 63 → t.h = s.h ∧ t.v = s.v ∧ t.w = s.w ∧ t.t = s.t) ∧
    (∀ a, a ≠ s.ptr.toNat → t.buf.read a = s.buf.read a) ∧
    (t.phase = .absorb → t.cause = s.cause ∧ t.buf.read s.ptr.toNat = some b) ∧
    (t.phase = .fault → t.buf = s.buf ∧ t.ptr = s.ptr ∧ t.len = s.len ∧ t.h = s.h ∧ t.v = s.v ∧ t.w = s.w ∧
      t.t = s.t) ∧
    (t.phase = s.phase ∨ t.phase = .fault)

/-- Rule R244: LengthOverflow exactly when LEN + 8 reaches 2^64, before any other write; STATUS shows code 3. -/
def Obligations.LengthOverflowRaised : Prop :=
  ∀ (s : State) (b : Byte), Inv s → s.phase = .absorb →
    (s.len.toNat + 8 ≥ 2 ^ 64 →
      ∃ t, t = { s with phase := .fault, cause := .lengthOverflow } ∧ exec (.push b) s = .next t ∧
        statusPort t = 0x0F) ∧
    (s.len.toNat + 8 < 2 ^ 64 →
      ∃ t, exec (.push b) s = .next t ∧ t.phase = .absorb ∧ t.len.toNat = s.len.toNat + 8)

/-- Rule R155 (with R153, R157, R214): FINAL with at most 55 bytes in the block. BUF becomes those bytes, 0x80,
`55 - p` zero bytes and the 8 length bytes; it is compressed once; PADCNT is 1; DIGEST is the serialised state;
everything else but the scratch W, V and T is as before. -/
def Obligations.FinalOneBlock : Prop :=
  ∀ (s : State) (bs : List Byte), s.phase = .absorb → s.padcnt = 0 → s.ptr.toNat = bs.length → bs.length ≤ 55 →
    HoldsBytes s.buf bs →
    ∃ block w v x m,
      block = bs ++ [0x80] ++ List.replicate (55 - bs.length) 0x00 ++ (be64enc s.len).toList ∧
      block.length = 64 ∧ HoldsBytes m block ∧
      exec .final s =
        .next { s with h := compress s.h block, w := w, v := v, t := x, buf := m, padcnt := 1, phase := .done,
                       digest := serializeState (compress s.h block) }

/-- Rule R156 (with R153, R154, R157, R214): FINAL with 56 bytes or more in the block. First block: those bytes, 0x80,
`63 - p` zero bytes. Second block: 56 zero bytes, the 8 length bytes, and this is what BUF holds afterwards. PADCNT is
2; DIGEST is the serialised state; everything else but the scratch W, V and T is as before. -/
def Obligations.FinalTwoBlocks : Prop :=
  ∀ (s : State) (bs : List Byte), s.phase = .absorb → s.padcnt = 0 → s.ptr.toNat = bs.length → 56 ≤ bs.length →
    HoldsBytes s.buf bs →
    ∃ block1 block2 w v x m,
      block1 = bs ++ [0x80] ++ List.replicate (63 - bs.length) 0x00 ∧ block1.length = 64 ∧
      block2 = List.replicate 56 0x00 ++ (be64enc s.len).toList ∧ block2.length = 64 ∧ HoldsBytes m block2 ∧
      exec .final s =
        .next { s with h := compress (compress s.h block1) block2, w := w, v := v, t := x, buf := m, padcnt := 2,
                       phase := .done, digest := serializeState (compress (compress s.h block1) block2) }

/-- Rules R65, R153, R214: what FINAL leaves unchanged when it completes. With at most 55 bytes in the block the
bytes below PTR are not stored to; with more, every byte of BUF is. -/
def Obligations.FinalFrame : Prop :=
  ∀ s t : State, exec .final s = .next t → t.phase = .done →
    t.ptr = s.ptr ∧ t.len = s.len ∧ t.cause = s.cause ∧ t.inputs = s.inputs ∧ t.draws = s.draws ∧
    t.digest = serializeState t.h ∧
    ∀ a, (a < s.ptr.toNat ∧ s.ptr.toNat ≤ 55) ∨ 64 ≤ a → t.buf.read a = s.buf.read a

/-- Rules R161, R243: in ABSORB with PADCNT not 0 (which no run reaches) FINAL ends in PaddingInvariantViolation. What
rule R243 leaves unspecified is free in the model (log 7); PTR, LEN and T are as before. -/
def Obligations.FinalPaddingFault : Prop :=
  ∀ s : State, s.phase = .absorb → s.padcnt ≠ 0 → WrittenBelow s.buf s.ptr.toNat →
    ∃ t, exec .final s = .next t ∧ t.phase = .fault ∧ t.cause = .paddingInvariantViolation ∧ t.ptr = s.ptr ∧
      t.len = s.len ∧ t.t = s.t ∧ t.inputs = s.inputs

/-- Rule R215: SRCERR raises SourceReadError in ABSORB, always, and ProtocolError in IDLE and DONE; nothing but PHASE
and CAUSE changes, STATUS shows 0x07, no digest is produced, and every command is ignored afterwards; IllegalCommand
with `imm8` not 0. -/
def Obligations.SrcerrCommand : Prop :=
  (∀ s : State, s.phase = .absorb →
    ∃ t, t = { s with phase := .fault, cause := .sourceReadError } ∧ exec .srcerr s = .next t ∧
      statusPort t = 0x07 ∧ digestPort t = none ∧ ∀ i, exec i t = .next t) ∧
  (∀ s : State, MayStart s → exec .srcerr s = .next { s with phase := .fault, cause := .protocolError }) ∧
  (∀ s : State, s.phase = .fault → exec .srcerr s = .next s) ∧
  (∀ fs ob, decode ⟨0x500, fs, ob⟩ = .ok .srcerr) ∧
  (∀ (s : State) (tx : Transaction) (rest : List HostInput), s.inputs = .command tx :: rest → s.phase ≠ .fault →
    tx.word.extractLsb' 8 4 = 0x5 → tx.word.extractLsb' 0 8 ≠ 0 →
    step s = .next { s with inputs := rest, phase := .fault, cause := .illegalCommand })

/-- Rule R246: which command in which phase raises ProtocolError, and that only PHASE and CAUSE change; a digest held
in DONE is no longer visible; STATUS shows code 5. -/
def Obligations.ProtocolErrorEntry : Prop :=
  (∀ s : State, s.phase = .absorb → ∀ i, (i = .init ∨ ∃ fs ob, i = .resume fs ob) →
    exec i s = .next { s with phase := .fault, cause := .protocolError }) ∧
  (∀ s : State, MayStart s → ∀ i, ((∃ b, i = .push b) ∨ i = .final ∨ i = .srcerr) →
    exec i s = .next { s with phase := .fault, cause := .protocolError }) ∧
  (∀ s : State, digestPort { s with phase := .fault, cause := .protocolError } = none ∧
    statusPort { s with phase := .fault, cause := .protocolError } = 0x17)

/-- Rules R249, R243: `raise` writes PHASE and CAUSE, and for every cause but the padding fault nothing else; a command
that raises ends in that state, whatever it had done before. That PTR, LEN and T are as before after the padding fault
too, which rule R243 does not say in words, is the model's choice (log 7). -/
def Obligations.RaiseWritesPhaseAndCause : Prop :=
  ∀ (c : Cause) (s : State),
    (c ≠ .paddingInvariantViolation → raiseFault c s = { s with phase := .fault, cause := c }) ∧
    (raiseFault c s).phase = .fault ∧ (raiseFault c s).cause = c ∧ (raiseFault c s).ptr = s.ptr ∧
    (raiseFault c s).len = s.len ∧ (raiseFault c s).t = s.t ∧ (raiseFault c s).inputs = s.inputs ∧
    settle s (.error (.raised c)) = .next (raiseFault c s)

/-- Rules R251, R255: a step that raises a fault other than the padding fault took one command, and left every
element but PHASE and CAUSE exactly as it was. -/
def Obligations.FaultsArePrecise : Prop :=
  ∀ s t : State, s.phase ≠ .fault → step s = .next t → t.phase = .fault → t.cause ≠ .paddingInvariantViolation →
    ∃ tx rest, s.inputs = .command tx :: rest ∧
      t = { s with inputs := rest, phase := .fault, cause := t.cause }

/-! ### Primitives and converters -/

/-- Rule R120: addition modulo 2^32, associative and commutative. -/
def Obligations.Add32Modular : Prop :=
  ∀ a b c : Word, (add32 a b).toNat = (a.toNat + b.toNat) % 2 ^ 32 ∧ add32 (add32 a b) c = add32 a (add32 b c) ∧
    add32 a b = add32 b a ∧ add32 a 0 = a

/-- Rule R122: bit `i` of the result is bit `(i + n) mod 32` of `x`. -/
def Obligations.RotrMovesBits : Prop :=
  ∀ (x : Word) (n : Nat), 1 ≤ n → n ≤ 31 →
    ∀ i, i < 32 → (rotr x n).getLsbD i = x.getLsbD ((i + n) % 32)

/-- Rules R124 to R127: the mixing functions bit by bit. -/
def Obligations.MixingFunctionBits : Prop :=
  ∀ (x : Word) (i : Nat), i < 32 →
    (∀ n, (shr x n).getLsbD i = x.getLsbD (i + n)) ∧
    (ssig0 x).getLsbD i = ((x.getLsbD ((i + 7) % 32)).xor (x.getLsbD ((i + 18) % 32))).xor (x.getLsbD (i + 3)) ∧
    (ssig1 x).getLsbD i = ((x.getLsbD ((i + 17) % 32)).xor (x.getLsbD ((i + 19) % 32))).xor (x.getLsbD (i + 10)) ∧
    (bsig0 x).getLsbD i =
      ((x.getLsbD ((i + 2) % 32)).xor (x.getLsbD ((i + 13) % 32))).xor (x.getLsbD ((i + 22) % 32)) ∧
    (bsig1 x).getLsbD i =
      ((x.getLsbD ((i + 6) % 32)).xor (x.getLsbD ((i + 11) % 32))).xor (x.getLsbD ((i + 25) % 32))

/-- Rules R128, R129: CH takes the bit of `y` where `x` has 1 and of `z` where it has 0; MAJ takes the value held by
at least two of the three. -/
def Obligations.ChooseAndMajorityBits : Prop :=
  ∀ (x y z : Word) (i : Nat), i < 32 →
    (ch x y z).getLsbD i = (if x.getLsbD i then y.getLsbD i else z.getLsbD i) ∧
    (maj x y z).getLsbD i =
      decide (2 ≤ (x.getLsbD i).toNat + (y.getLsbD i).toNat + (z.getLsbD i).toNat)

/-- Rules R130 to R133, R192: the converters are big-endian and round-trip, byte by byte and for a whole state. -/
def Obligations.ConvertersRoundTrip : Prop :=
  (∀ b0 b1 b2 b3 : Byte, (be32dec b0 b1 b2 b3).toNat =
    b0.toNat * 2 ^ 24 + b1.toNat * 2 ^ 16 + b2.toNat * 2 ^ 8 + b3.toNat) ∧
  (∀ b0 b1 b2 b3 : Byte, be32enc (be32dec b0 b1 b2 b3) = #v[b0, b1, b2, b3]) ∧
  (∀ w : Word, be32dec (be32enc w)[0] (be32enc w)[1] (be32enc w)[2] (be32enc w)[3] = w) ∧
  (∀ fs : Port, portOfBytes (serializeState (parseState fs)) = fs) ∧
  (∀ h : Vector Word 8, parseState (portOfBytes (serializeState h)) = h)

/-- Rule R107: byte `4i+k` of a digest is bits 31-8k : 24-8k of `H[i]`; on a 256-bit port byte `j` is bits
255-8j : 248-8j, word `H[i]` is bits 255-32i : 224-32i, on both ports, and the port read as one number is the bytes
read big-endian. -/
def Obligations.PortLayout : Prop :=
  (∀ (h : Vector Word 8) (i k : Nat) (hi : i < 8) (hk : k < 4),
    (serializeState h)[4 * i + k] = (h[i]).extractLsb' (24 - 8 * k) 8) ∧
  (∀ (d : Vector Byte 32) (j : Nat) (hj : j < 32), (portOfBytes d).extractLsb' (248 - 8 * j) 8 = d[j]) ∧
  (∀ (h : Vector Word 8) (i : Nat) (hi : i < 8),
    (portOfBytes (serializeState h)).extractLsb' (224 - 32 * i) 32 = h[i]) ∧
  (∀ (p : Port) (i : Nat) (hi : i < 8), (parseState p)[i] = p.extractLsb' (224 - 32 * i) 32) ∧
  (∀ d : Vector Byte 32, (portOfBytes d).toNat = beNat d.toList)

/-! ### BUF -/

/-- Rules R10, R61, R63: one byte written is read back and no other changes; the length field written at 56 is read
back by the two 4-byte reads it covers, the more significant half first; a 4-byte read is the big-endian number of
the four bytes, whatever wrote them. -/
def Obligations.BufferMixedWidths : Prop :=
  (∀ (m : Memory) (a : Nat) (b : Byte), a < 64 →
    ∃ m', memWrite1 m a b = .ok m' ∧ ∀ k, m'.read k = if k = a then some b else m.read k) ∧
  (∀ (m : Memory) (v : Len), ∃ m', memWrite8 m 56 v = .ok m' ∧ memRead4 m' 56 = .ok (v.extractLsb' 32 32) ∧
    memRead4 m' 60 = .ok (v.extractLsb' 0 32) ∧ ∀ k, (k < 56 ∨ 64 ≤ k) → m'.read k = m.read k) ∧
  (∀ (m : Memory) (j : Nat) (b0 b1 b2 b3 : Byte), j < 16 → m.read (4 * j) = some b0 →
    m.read (4 * j + 1) = some b1 → m.read (4 * j + 2) = some b2 → m.read (4 * j + 3) = some b3 →
    ∃ x, memRead4 m (4 * j) = .ok x ∧
      x.toNat = b0.toNat * 2 ^ 24 + b1.toNat * 2 ^ 16 + b2.toNat * 2 ^ 8 + b3.toNat)

/-- Rule R9: `BUF[lo .. hi] <- 0x00` writes zero at `lo` to `hi` and nowhere else, and nothing when `hi < lo`. -/
def Obligations.ZeroFillRange : Prop :=
  ∀ (m : Memory) (lo hi : Nat), hi < 64 →
    ∃ m', zeroFill m lo hi = .ok m' ∧ (hi < lo → m' = m) ∧
      ∀ k, m'.read k = if lo ≤ k ∧ k ≤ hi then some 0x00 else m.read k

/-! ### The engine -/

/-- Rules R182, R183: after E_COMPRESS the schedule is the block's words verbatim and then the recurrence, every index
16 to 63. -/
def Obligations.ScheduleRecurrence : Prop :=
  ∀ (s : State) (block : List Byte), block.length = 64 → HoldsBytes s.buf block →
    ∃ t, eCompress s = .ok t ∧
      (∀ (i : Nat) (hi : i < 16) (b0 b1 b2 b3 : Byte), block[4 * i]? = some b0 → block[4 * i + 1]? = some b1 →
        block[4 * i + 2]? = some b2 → block[4 * i + 3]? = some b3 → t.w[i] = be32dec b0 b1 b2 b3) ∧
      (∀ (i : Nat) (hi : i < 48), t.w[i + 16] =
        add32 (add32 (add32 t.w[i] (ssig0 t.w[i + 1])) t.w[i + 9]) (ssig1 t.w[i + 14]))

/-- Rule R185: one round, a simultaneous update of the eight working variables. -/
def Obligations.RoundUpdate : Prop :=
  ∀ (s : State) (a b c d e f g h t1 t2 : Word), s.v = #v[a, b, c, d, e, f, g, h] →
    t1 = add32 (add32 (add32 (add32 h (bsig1 e)) (ch e f g)) (kRom[s.t.toNat]'s.t.isLt)) (s.w[s.t.toNat]'s.t.isLt) →
    t2 = add32 (bsig0 a) (maj a b c) →
    eRound s = { s with v := #v[add32 t1 t2, a, b, c, add32 d t1, e, f, g] }

/-- Rules R180, R184, R186, R188: the operations that move whole register files, with every other element as
before. -/
def Obligations.EngineRegisterMoves : Prop :=
  ∀ s : State,
    eInitIv s = { s with h := ivRom } ∧ eSeed s = { s with v := s.h } ∧
    (∃ h : Vector Word 8, eAddback s = { s with h := h } ∧ ∀ i, (hi : i < 8) → h[i] = add32 s.h[i] s.v[i]) ∧
    (∃ d : Vector Byte 32, eSerialize s = { s with digest := d } ∧
      ∀ (i k : Nat) (hi : i < 8) (hk : k < 4), d[4 * i + k] = (be32enc s.h[i])[k])

/-- Rules R42, R187, R189: what E_COMPRESS computes depends on H and the 64 bytes of BUF only: two states that agree
on these agree afterwards on H, W, V and T, whatever W, V, T and the rest held. -/
def Obligations.CompressIgnoresScratch : Prop :=
  ∀ s t : State, s.h = t.h → WrittenBelow s.buf 64 → (∀ a, a < 64 → s.buf.read a = t.buf.read a) →
    ∃ s' t', eCompress s = .ok s' ∧ eCompress t = .ok t' ∧ s'.h = t'.h ∧ s'.w = t'.w ∧ s'.v = t'.v ∧ s'.t = t'.t ∧
      s'.buf = s.buf ∧ t'.buf = t.buf

/-! ### Rules about the whole machine -/

/-- The invariant holds after reset. -/
def Obligations.ResetMeetsInvariant : Prop := Inv State.reset

/-- Every step keeps the invariant: BUF keeps its canonical form (log 3), CAUSE is non-zero exactly in FAULT (R103),
the padding fault never fires (R161), a stream has no padding block and all bytes of its partial block, and in DONE
PADCNT is 1 or 2 as PTR decides (R158) and DIGEST is the serialised H (R188). -/
def Obligations.StepKeepsInvariant : Prop := ∀ s t : State, Inv s → step s = .next t → Inv t

/-- Rules R42, R301: in every state that meets the invariant a step completes: no unwritten byte is read and nothing is
refused. -/
def Obligations.StepAlwaysCompletes : Prop := ∀ s : State, Inv s → ∃ t, step s = .next t

/-- Rule R103: the STATUS word: bits 1:0 PHASE, bits 4:2 CAUSE; its values in the states a run can meet; CAUSE is
non-zero iff PHASE is FAULT. -/
def Obligations.StatusWordValues : Prop :=
  (∀ s : State, (statusPort s).extractLsb' 0 2 = phaseCode s.phase ∧
    (statusPort s).extractLsb' 2 3 = causeCode s.cause) ∧
  ∀ s : State, Inv s →
    (causeCode s.cause ≠ 0 ↔ phaseCode s.phase = 3) ∧
    (s.phase = .idle → statusPort s = 0x00) ∧ (s.phase = .absorb → statusPort s = 0x01) ∧
    (s.phase = .done → statusPort s = 0x02) ∧
    (s.phase = .fault → statusPort s = match s.cause with
      | .none => 0x03
      | .sourceReadError => 0x07
      | .paddingInvariantViolation => 0x0B
      | .lengthOverflow => 0x0F
      | .illegalCommand => 0x13
      | .protocolError => 0x17)

/-- Rules R33, R287: the DIGEST port has a value exactly in DONE, and it is then the 32 bytes of DIGEST, byte `j` at
bits 255-8j : 248-8j. -/
def Obligations.DigestPortOnlyInDone : Prop :=
  ∀ s : State, (digestPort s = none ↔ s.phase ≠ .done) ∧
    ∀ p, digestPort s = some p → ∀ (j : Nat) (hj : j < 32), p.extractLsb' (248 - 8 * j) 8 = s.digest[j]

/-- Rule R33: DIGEST is written by FINAL in ABSORB; in a run nothing else writes it but the reset event, which leaves it
without a value. -/
def Obligations.DigestWrittenOnlyByFinal : Prop :=
  ∀ s t : State, Inv s → step s = .next t → t.digest ≠ s.digest →
    (∃ tx rest, s.inputs = .command tx :: rest ∧ decode tx = .ok .final ∧ s.phase = .absorb ∧ t.phase = .done) ∨
    ∃ rest, s.inputs = .reset :: rest

/-- Rules R36, R37, R221, R286: only RESUME reads the operand ports: with any other word, what the ports show makes
no difference. -/
def Obligations.OnlyResumeReadsPorts : Prop :=
  ∀ (s : State) (tx tx' : Transaction) (rest : List HostInput), tx.word = tx'.word → tx.word ≠ 0x200 →
    step { s with inputs := .command tx :: rest } = step { s with inputs := .command tx' :: rest }

/-- Rules R28, R29: pushing bytes in ABSORB, with no overflow: LEN grows by 8 for each, PTR counts them modulo 64,
and the stream stays in ABSORB. -/
def Obligations.PushesCountBytes : Prop :=
  ∀ (bytes : List Byte) (s : State), Inv s → s.phase = .absorb → s.len.toNat + 8 * bytes.length < 2 ^ 64 →
    ∃ t, send s (commands (bytes.map Instr.push)) = .next t ∧ t.phase = .absorb ∧
      t.len.toNat = s.len.toNat + 8 * bytes.length ∧ t.ptr.toNat = (s.ptr.toNat + bytes.length) % 64 ∧
      t.padcnt = s.padcnt ∧ t.digest = s.digest ∧ t.cause = s.cause

/-- Rule R32: once non-zero, CAUSE does not change until reset; and only a `raise`, which enters FAULT, makes it
non-zero. -/
def Obligations.CauseLatched : Prop :=
  ∀ s t : State, Inv s → step s = .next t → t.cause ≠ s.cause →
    (s.cause = .none ∧ t.phase = .fault) ∨ ∃ rest, s.inputs = .reset :: rest

/-- Rules R40, R42, R282: no element is read before a rule of the same computation has written it. Two states the
host cannot tell apart (`Alike`, which asks nothing of H, PTR, LEN, PADCNT outside a stream, of V, T, W ever, of BUF
beyond the partial block) step to two states it cannot tell apart, with equal STATUS and DIGEST ports. It holds
whatever values log 2 and log 4 give to what the spec leaves without a value. -/
def Obligations.HiddenStateNeverObserved : Prop :=
  ∀ s t : State, Inv s → Inv t → Alike s t →
    ∃ s' t', step s = .next s' ∧ step t = .next t' ∧ Alike s' t' ∧ statusPort s' = statusPort t' ∧
      digestPort s' = digestPort t'

/-! ### The engine as a function, and command sequences -/

/-- Rules R106, R159, R163, R166: message and padding together are a whole number of blocks, `n/64 + 1` of them when
`n mod 64 ≤ 55` and `n/64 + 2` otherwise, each of 64 bytes, whatever the offset; the padding is 0x80, zero bytes and
8 length bytes, 64 - p or 128 - p in all. -/
def Obligations.PaddedIsWholeBlocks : Prop :=
  ∀ (o : Nat) (m : List Byte),
    (padded o m).length = 64 * (m.length / 64 + if m.length % 64 ≤ 55 then 1 else 2) ∧
    (pad o m.length).length = (if m.length % 64 ≤ 55 then 64 else 128) - m.length % 64 ∧
    (blocks (padded o m)).length = m.length / 64 + (if m.length % 64 ≤ 55 then 1 else 2) ∧
    (∀ b ∈ blocks (padded o m), b.length = 64) ∧ (blocks (padded o m)).flatten = padded o m

/-- Rules R190, R216: from any state in IDLE or DONE, whatever the registers hold, INIT, one PUSH per byte and FINAL
leave the core in DONE with `digest(m)` on the DIGEST port. -/
def Obligations.DigestSequenceComputesDigest : Prop :=
  ∀ (m : List Byte) (s : State), MayStart s → s.cause = .none → 8 * m.length < 2 ^ 64 →
    ∃ t, send s (commands (digestSequence m)) = .next t ∧ t.phase = .done ∧ statusPort t = 0x02 ∧
      digestPort t = some (digest m)

/-- Rules R190, R217: from any state in IDLE or DONE, RESUME, one PUSH per byte and FINAL leave
`continueDigest(x, fs, ob)` on the DIGEST port, for every foreign state and every offset that leaves room. -/
def Obligations.ContinueSequenceComputesContinuation : Prop :=
  ∀ (x : List Byte) (fs : Port) (ob : Len) (s : State), MayStart s → s.cause = .none →
    ob.toNat + 8 * x.length < 2 ^ 64 →
    ∃ t, send s (commands (continueSequence x fs ob)) = .next t ∧ t.phase = .done ∧ statusPort t = 0x02 ∧
      digestPort t = some (continueDigest x fs ob.toNat)

/-- Rule R191, the continuation property: continuing from the digest of `m` with the bit-length of the padded prefix
is hashing `m`, its padding and the suffix. -/
def Obligations.ContinuationProperty : Prop :=
  ∀ m x : List Byte, paddedBits m.length + 8 * x.length < 2 ^ 64 →
    paddedBits m.length % 512 = 0 ∧
    continueDigest x (digest m) (paddedBits m.length) = digest (m ++ pad 0 m.length ++ x)

/-- Rule R223, length extension at the command level: the DIGEST left by CONTINUE with the digest of `m` is the one left
by DIGEST of `m`, its padding and the suffix. -/
def Obligations.LengthExtensionAtCommands : Prop :=
  ∀ (m x : List Byte) (s : State), MayStart s → s.cause = .none → paddedBits m.length + 8 * x.length < 2 ^ 64 →
    ∃ t u v fs p, send s (commands (digestSequence m)) = .next t ∧ digestPort t = some fs ∧
      send t (commands (continueSequence x fs (BitVec.ofNat 64 (paddedBits m.length)))) = .next u ∧
      send s (commands (digestSequence (m ++ pad 0 m.length ++ x))) = .next v ∧
      digestPort u = some p ∧ digestPort v = some p

/-- Rules R216, R241, R252: if the source fails there is no result: after SRCERR in a stream STATUS shows 0x07 and
the DIGEST port has no value, whatever commands follow. -/
def Obligations.SourceFailureGivesNoDigest : Prop :=
  ∀ (m : List Byte) (is : List Instr) (s : State), MayStart s → 8 * m.length < 2 ^ 64 →
    ∃ t, send s (commands (.init :: m.map Instr.push ++ .srcerr :: is)) = .next t ∧ statusPort t = 0x07 ∧
      digestPort t = none

/-- Rules R252, R280, R283: after a reset event, from any state (FAULT too), a new computation gives its digest: it owes
nothing to what was there before. -/
def Obligations.ResetThenDigest : Prop :=
  ∀ (m : List Byte) (s : State), 8 * m.length < 2 ^ 64 →
    ∃ t, send s (.reset :: commands (digestSequence m)) = .next t ∧ statusPort t = 0x02 ∧
      digestPort t = some (digest m)

/-- Rules R99 to R102: what the lines of a listing stand for; an ill-formed line stands for nothing. -/
def Obligations.ListingExpansion : Prop :=
  (∀ bytes, (Listing.pushs bytes).expand = some (bytes.map Instr.push)) ∧
  (∀ bytes, (Listing.digest bytes).expand = some (digestSequence bytes)) ∧
  (∀ (bytes : List Byte) (fs : Vector Byte 32) (ob : Len),
    (Listing.continuation bytes fs.toList ob.toNat).expand = some (continueSequence bytes (portOfBytes fs) ob)) ∧
  (∀ (bytes fs : List Byte) (ob : Nat), fs.length ≠ 32 ∨ 2 ^ 64 ≤ ob →
    (Listing.continuation bytes fs ob).expand = none)

end
end

