-- ==== Sys2Proof/Laws/Memory.lean ====
section
/-! SUPPORT. What the operations on BUF can do: reads after writes, the canonical form, and when the partial
accesses of `20_memory.md` rule R64 answer. -/

namespace Sys2Proof.Machine

@[simp] theorem Memory.read_nil (a : Nat) : Memory.read [] a = none := rfl

/-- A write is seen at its own address and nowhere else, whatever the list. -/
theorem Memory.read_write (m : Memory) (a k : Nat) (x : Byte) :
    (m.write a x).read k = if k = a then some x else m.read k := by
  induction m with
  | nil => simp only [Memory.write, Memory.read]; grind
  | cons c m ih =>
    obtain ⟨j, b⟩ := c
    simp only [Memory.write]
    split
    · simp only [Memory.read]; grind
    · split
      · simp only [Memory.read]; grind
      · simp only [Memory.read, ih]; grind

/-- Every address a write lists was listed before or is the one written. -/
theorem Memory.mem_write {m : Memory} {a : Nat} {x : Byte} {c : Host.Cell} (hc : c ∈ m.write a x) :
    c ∈ m ∨ c = (a, x) := by
  induction m with
  | nil => simpa [Memory.write] using hc
  | cons d m ih =>
    obtain ⟨j, b⟩ := d
    simp only [Memory.write] at hc
    split at hc
    · simp only [List.mem_cons] at hc ⊢; tauto
    · split at hc
      · simp only [List.mem_cons] at hc ⊢; tauto
      · simp only [List.mem_cons] at hc ⊢; tauto

/-- A write inside BUF keeps the canonical form. -/
theorem Memory.write_wf {m : Memory} (hm : m.wf) {a : Nat} (ha : a < 64) (x : Byte) : (m.write a x).wf := by
  refine ⟨?_, fun c hc => (Memory.mem_write hc).elim (hm.2 c) (fun h => h ▸ ha)⟩
  have hp := hm.1
  clear hm
  induction m with
  | nil => simp [Memory.write]
  | cons d m ih =>
    obtain ⟨j, b⟩ := d
    have hm := List.pairwise_cons.1 hp
    simp only [Memory.write]
    split
    · rename_i hlt
      refine List.pairwise_cons.2 ⟨fun c hc => ?_, hp⟩
      rcases List.mem_cons.1 hc with rfl | hc
      · exact hlt
      · exact Nat.lt_trans hlt (hm.1 c hc)
    · split
      · rename_i heq
        exact List.pairwise_cons.2 ⟨fun c hc => heq ▸ hm.1 c hc, hm.2⟩
      · refine List.pairwise_cons.2 ⟨fun c hc => ?_, ih hm.2⟩
        rcases Memory.mem_write hc with hc | rfl
        · exact hm.1 c hc
        · simp only; omega

/-- Consecutive bytes are seen at their own addresses and nowhere else. -/
theorem Memory.read_writeBytes (bs : List Byte) (m : Memory) (a k : Nat) :
    (m.writeBytes a bs).read k = if a ≤ k ∧ k < a + bs.length then bs[k - a]? else m.read k := by
  induction bs generalizing m a with
  | nil => simp only [Memory.writeBytes, List.length_nil]; grind
  | cons b bs ih =>
    rw [Memory.writeBytes, ih, Memory.read_write]
    by_cases h : k = a
    · subst h; simp
    · simp only [h, if_false, List.length_cons]
      by_cases h' : a + 1 ≤ k ∧ k < a + 1 + bs.length
      · rw [if_pos h', if_pos (by omega), show k - a = k - (a + 1) + 1 by omega, List.getElem?_cons_succ]
      · rw [if_neg h', if_neg (by omega)]

@[simp] theorem Memory.writeBytes_nil (m : Memory) (a : Nat) : m.writeBytes a [] = m := by rw [Memory.writeBytes]

theorem Memory.writeBytes_cons (m : Memory) (a : Nat) (b : Byte) (bs : List Byte) :
    m.writeBytes a (b :: bs) = (m.write a b).writeBytes (a + 1) bs := by rw [Memory.writeBytes]

theorem Memory.writeBytes_wf (bs : List Byte) {m : Memory} (hm : m.wf) {a : Nat} (ha : a + bs.length ≤ 64) :
    (m.writeBytes a bs).wf := by
  induction bs generalizing m a with
  | nil => rwa [Memory.writeBytes_nil]
  | cons b bs ih =>
    simp only [List.length_cons] at ha
    rw [Memory.writeBytes_cons]
    exact ih (Memory.write_wf hm (by omega) b) (by omega)

/-- One byte can be accessed at 0 to 63. -/
theorem accessExists_one (a : Nat) : accessExists a 1 = decide (a < 64) := by
  simp [accessExists]

/-- Four bytes can be accessed at the multiples of 4. -/
theorem accessExists_four (a : Nat) : accessExists a 4 = (decide (a < 64) && decide (a % 4 = 0)) := by
  simp [accessExists]

/-- What MemRead(a, 1) can do. -/
theorem memRead1_eq (m : Memory) (a : Nat) :
    memRead1 m a =
      if a < 64 then
        match m.read a with
        | some b => .ok b
        | none => .error (.stopped (.unwrittenByte a))
      else .error (.stopped (.noSuchAccess a 1)) := by
  rw [memRead1, accessExists_one]
  by_cases h : a < 64
  · refine (if_pos (decide_eq_true h)).trans (Eq.trans ?_ (if_pos h).symm)
    cases m.read a <;> rfl
  · exact (if_neg (by simp [h])).trans (if_neg h).symm

theorem memRead1_ok {m : Memory} {a : Nat} {b : Byte} (ha : a < 64) (h : m.read a = some b) :
    memRead1 m a = .ok b := by
  simp [memRead1_eq, ha, h]

/-- MemRead(a, 4) of four written bytes, big-endian (rule R61). -/
theorem memRead4_ok {m : Memory} {a : Nat} {b0 b1 b2 b3 : Byte} (ha : a < 64) (h4 : a % 4 = 0)
    (h0 : m.read a = some b0) (h1 : m.read (a + 1) = some b1) (h2 : m.read (a + 2) = some b2)
    (h3 : m.read (a + 3) = some b3) : memRead4 m a = .ok (be32dec b0 b1 b2 b3) := by
  have hx : accessExists a 4 = true := by simp [accessExists_four, ha, h4]
  rw [memRead4, if_pos hx, memRead1_ok ha h0, memRead1_ok (by omega) h1, memRead1_ok (by omega) h2,
    memRead1_ok (by omega) h3]
  rfl

theorem memWrite1_ok {a : Nat} (ha : a < 64) (m : Memory) (b : Byte) : memWrite1 m a b = .ok (m.write a b) := by
  simp [memWrite1, accessExists_one, ha]

theorem memWrite8_ok (m : Memory) (v : Len) :
    memWrite8 m Config.lenFieldAt v = .ok (m.writeBytes 56 (be64enc v).toList) := rfl

/-- Zero bytes at `n` consecutive addresses. -/
theorem foldlM_zero_ok (n : Nat) (m : Memory) (lo : Nat) (h : lo + n ≤ 64) :
    (List.range' lo n).foldlM (fun m a => memWrite1 m a 0x00) m =
      .ok (m.writeBytes lo (List.replicate n 0x00)) := by
  induction n generalizing m lo with
  | zero => rw [List.replicate_zero, Memory.writeBytes_nil]; rfl
  | succ n ih =>
    rw [List.range'_succ, List.foldlM_cons, memWrite1_ok (by omega), List.replicate_succ, Memory.writeBytes_cons]
    exact ih _ _ (by omega)

/-- What `BUF[lo .. hi] <- 0x00` does inside BUF (rule R9); nothing when `hi < lo`. -/
theorem zeroFill_ok (m : Memory) (lo hi : Nat) (h : lo + rangeCount lo hi ≤ 64) :
    zeroFill m lo hi = .ok (m.writeBytes lo (List.replicate (rangeCount lo hi) 0x00)) :=
  foldlM_zero_ok _ _ _ h

theorem reset_buf_wf : State.reset.buf.wf := by decide

end Sys2Proof.Machine
end

