-- ==== Sys2Proof/Laws/Operands.lean ====
section
/-! SUPPORT. Big-endian numbers digit by digit (`30_encoding.md` rule R107, `40_primitives.md` rule R130). -/

namespace Sys2Proof.Machine

theorem beNat_snoc (l : List Byte) (b : Byte) : beNat (l ++ [b]) = beNat l * 256 + b.toNat := by simp [beNat]

theorem beNat_lt (l : List Byte) : beNat l < 256 ^ l.length := by
  induction l using List.reverseRecOn with
  | nil => simp [beNat]
  | append_singleton l b ih =>
    rw [beNat_snoc, List.length_append, List.length_singleton, Nat.pow_succ]
    have := b.isLt
    omega

/-- Byte `j` of a big-endian number, the first byte the most significant. -/
theorem beNat_digit (l : List Byte) (j : Nat) (hj : j < l.length) :
    beNat l / 256 ^ (l.length - 1 - j) % 256 = l[j].toNat := by
  induction l using List.reverseRecOn with
  | nil => simp at hj
  | append_singleton l b ih =>
    have hb := b.isLt
    rw [beNat_snoc]
    by_cases h : j < l.length
    · rw [List.getElem_append_left h, ← ih h, List.length_append, List.length_singleton,
        show l.length + 1 - 1 - j = (l.length - 1 - j) + 1 by omega, Nat.pow_succ, Nat.mul_comm (256 ^ _),
        ← Nat.div_div_eq_div_mul]
      congr 2
      omega
    · simp only [List.length_append, List.length_singleton] at hj ⊢
      have : j = l.length := by omega
      subst this
      simp; omega

/-- A 32-bit word of four bytes as a number (rule R130). -/
theorem be32dec_toNat (b0 b1 b2 b3 : Byte) : (be32dec b0 b1 b2 b3).toNat =
    b0.toNat * 2 ^ 24 + b1.toNat * 2 ^ 16 + b2.toNat * 2 ^ 8 + b3.toNat := by
  have h1 := b1.isLt
  have h2 := b2.isLt
  have h3 := b3.isLt
  simp only [be32dec, BitVec.toNat_append]
  rw [← Nat.shiftLeft_add_eq_or_of_lt h3, ← Nat.shiftLeft_add_eq_or_of_lt h2, ← Nat.shiftLeft_add_eq_or_of_lt h1]
  simp only [Nat.shiftLeft_eq]
  omega

end Sys2Proof.Machine
end

