-- ==== Sys2Proof/Laws/State.lean ====
section
/-! SUPPORT. What each update of State writes and what it leaves: one lemma per field per update, so that no proof
unfolds a record update. -/

namespace Sys2Proof.Machine

/-! ### eInitIv -/

@[simp] theorem eInitIv_h (s : State) : (eInitIv s).h = ivRom := rfl
@[simp] theorem eInitIv_v (s : State) : (eInitIv s).v = s.v := rfl
@[simp] theorem eInitIv_t (s : State) : (eInitIv s).t = s.t := rfl
@[simp] theorem eInitIv_w (s : State) : (eInitIv s).w = s.w := rfl
@[simp] theorem eInitIv_buf (s : State) : (eInitIv s).buf = s.buf := rfl
@[simp] theorem eInitIv_ptr (s : State) : (eInitIv s).ptr = s.ptr := rfl
@[simp] theorem eInitIv_len (s : State) : (eInitIv s).len = s.len := rfl
@[simp] theorem eInitIv_padcnt (s : State) : (eInitIv s).padcnt = s.padcnt := rfl
@[simp] theorem eInitIv_phase (s : State) : (eInitIv s).phase = s.phase := rfl
@[simp] theorem eInitIv_cause (s : State) : (eInitIv s).cause = s.cause := rfl
@[simp] theorem eInitIv_digest (s : State) : (eInitIv s).digest = s.digest := rfl
@[simp] theorem eInitIv_inputs (s : State) : (eInitIv s).inputs = s.inputs := rfl
@[simp] theorem eInitIv_draws (s : State) : (eInitIv s).draws = s.draws := rfl

/-! ### eParse -/

@[simp] theorem eParse_h (fs : Port) (s : State) : (eParse fs s).h = parseState fs := rfl
@[simp] theorem eParse_v (fs : Port) (s : State) : (eParse fs s).v = s.v := rfl
@[simp] theorem eParse_t (fs : Port) (s : State) : (eParse fs s).t = s.t := rfl
@[simp] theorem eParse_w (fs : Port) (s : State) : (eParse fs s).w = s.w := rfl
@[simp] theorem eParse_buf (fs : Port) (s : State) : (eParse fs s).buf = s.buf := rfl
@[simp] theorem eParse_ptr (fs : Port) (s : State) : (eParse fs s).ptr = s.ptr := rfl
@[simp] theorem eParse_len (fs : Port) (s : State) : (eParse fs s).len = s.len := rfl
@[simp] theorem eParse_padcnt (fs : Port) (s : State) : (eParse fs s).padcnt = s.padcnt := rfl
@[simp] theorem eParse_phase (fs : Port) (s : State) : (eParse fs s).phase = s.phase := rfl
@[simp] theorem eParse_cause (fs : Port) (s : State) : (eParse fs s).cause = s.cause := rfl
@[simp] theorem eParse_digest (fs : Port) (s : State) : (eParse fs s).digest = s.digest := rfl
@[simp] theorem eParse_inputs (fs : Port) (s : State) : (eParse fs s).inputs = s.inputs := rfl
@[simp] theorem eParse_draws (fs : Port) (s : State) : (eParse fs s).draws = s.draws := rfl

/-! ### setT -/

@[simp] theorem setT_h (t : Nat) (s : State) : (setT t s).h = s.h := rfl
@[simp] theorem setT_v (t : Nat) (s : State) : (setT t s).v = s.v := rfl
@[simp] theorem setT_t (t : Nat) (s : State) : (setT t s).t = BitVec.ofNat 6 t := rfl
@[simp] theorem setT_w (t : Nat) (s : State) : (setT t s).w = s.w := rfl
@[simp] theorem setT_buf (t : Nat) (s : State) : (setT t s).buf = s.buf := rfl
@[simp] theorem setT_ptr (t : Nat) (s : State) : (setT t s).ptr = s.ptr := rfl
@[simp] theorem setT_len (t : Nat) (s : State) : (setT t s).len = s.len := rfl
@[simp] theorem setT_padcnt (t : Nat) (s : State) : (setT t s).padcnt = s.padcnt := rfl
@[simp] theorem setT_phase (t : Nat) (s : State) : (setT t s).phase = s.phase := rfl
@[simp] theorem setT_cause (t : Nat) (s : State) : (setT t s).cause = s.cause := rfl
@[simp] theorem setT_digest (t : Nat) (s : State) : (setT t s).digest = s.digest := rfl
@[simp] theorem setT_inputs (t : Nat) (s : State) : (setT t s).inputs = s.inputs := rfl
@[simp] theorem setT_draws (t : Nat) (s : State) : (setT t s).draws = s.draws := rfl

/-! ### eExpand -/

@[simp] theorem eExpand_h (s : State) : (eExpand s).h = s.h := rfl
@[simp] theorem eExpand_v (s : State) : (eExpand s).v = s.v := rfl
@[simp] theorem eExpand_t (s : State) : (eExpand s).t = s.t := rfl
@[simp] theorem eExpand_w (s : State) : (eExpand s).w = s.w.set s.t.toNat (expandWord s) s.t.isLt := rfl
@[simp] theorem eExpand_buf (s : State) : (eExpand s).buf = s.buf := rfl
@[simp] theorem eExpand_ptr (s : State) : (eExpand s).ptr = s.ptr := rfl
@[simp] theorem eExpand_len (s : State) : (eExpand s).len = s.len := rfl
@[simp] theorem eExpand_padcnt (s : State) : (eExpand s).padcnt = s.padcnt := rfl
@[simp] theorem eExpand_phase (s : State) : (eExpand s).phase = s.phase := rfl
@[simp] theorem eExpand_cause (s : State) : (eExpand s).cause = s.cause := rfl
@[simp] theorem eExpand_digest (s : State) : (eExpand s).digest = s.digest := rfl
@[simp] theorem eExpand_inputs (s : State) : (eExpand s).inputs = s.inputs := rfl
@[simp] theorem eExpand_draws (s : State) : (eExpand s).draws = s.draws := rfl

/-! ### eSeed -/

@[simp] theorem eSeed_h (s : State) : (eSeed s).h = s.h := rfl
@[simp] theorem eSeed_v (s : State) : (eSeed s).v = s.h := rfl
@[simp] theorem eSeed_t (s : State) : (eSeed s).t = s.t := rfl
@[simp] theorem eSeed_w (s : State) : (eSeed s).w = s.w := rfl
@[simp] theorem eSeed_buf (s : State) : (eSeed s).buf = s.buf := rfl
@[simp] theorem eSeed_ptr (s : State) : (eSeed s).ptr = s.ptr := rfl
@[simp] theorem eSeed_len (s : State) : (eSeed s).len = s.len := rfl
@[simp] theorem eSeed_padcnt (s : State) : (eSeed s).padcnt = s.padcnt := rfl
@[simp] theorem eSeed_phase (s : State) : (eSeed s).phase = s.phase := rfl
@[simp] theorem eSeed_cause (s : State) : (eSeed s).cause = s.cause := rfl
@[simp] theorem eSeed_digest (s : State) : (eSeed s).digest = s.digest := rfl
@[simp] theorem eSeed_inputs (s : State) : (eSeed s).inputs = s.inputs := rfl
@[simp] theorem eSeed_draws (s : State) : (eSeed s).draws = s.draws := rfl

/-! ### eRound -/

@[simp] theorem eRound_h (s : State) : (eRound s).h = s.h := rfl
@[simp] theorem eRound_v (s : State) : (eRound s).v = roundV s := rfl
@[simp] theorem eRound_t (s : State) : (eRound s).t = s.t := rfl
@[simp] theorem eRound_w (s : State) : (eRound s).w = s.w := rfl
@[simp] theorem eRound_buf (s : State) : (eRound s).buf = s.buf := rfl
@[simp] theorem eRound_ptr (s : State) : (eRound s).ptr = s.ptr := rfl
@[simp] theorem eRound_len (s : State) : (eRound s).len = s.len := rfl
@[simp] theorem eRound_padcnt (s : State) : (eRound s).padcnt = s.padcnt := rfl
@[simp] theorem eRound_phase (s : State) : (eRound s).phase = s.phase := rfl
@[simp] theorem eRound_cause (s : State) : (eRound s).cause = s.cause := rfl
@[simp] theorem eRound_digest (s : State) : (eRound s).digest = s.digest := rfl
@[simp] theorem eRound_inputs (s : State) : (eRound s).inputs = s.inputs := rfl
@[simp] theorem eRound_draws (s : State) : (eRound s).draws = s.draws := rfl

/-! ### eAddback -/

@[simp] theorem eAddback_h (s : State) : (eAddback s).h = Vector.zipWith add32 s.h s.v := rfl
@[simp] theorem eAddback_v (s : State) : (eAddback s).v = s.v := rfl
@[simp] theorem eAddback_t (s : State) : (eAddback s).t = s.t := rfl
@[simp] theorem eAddback_w (s : State) : (eAddback s).w = s.w := rfl
@[simp] theorem eAddback_buf (s : State) : (eAddback s).buf = s.buf := rfl
@[simp] theorem eAddback_ptr (s : State) : (eAddback s).ptr = s.ptr := rfl
@[simp] theorem eAddback_len (s : State) : (eAddback s).len = s.len := rfl
@[simp] theorem eAddback_padcnt (s : State) : (eAddback s).padcnt = s.padcnt := rfl
@[simp] theorem eAddback_phase (s : State) : (eAddback s).phase = s.phase := rfl
@[simp] theorem eAddback_cause (s : State) : (eAddback s).cause = s.cause := rfl
@[simp] theorem eAddback_digest (s : State) : (eAddback s).digest = s.digest := rfl
@[simp] theorem eAddback_inputs (s : State) : (eAddback s).inputs = s.inputs := rfl
@[simp] theorem eAddback_draws (s : State) : (eAddback s).draws = s.draws := rfl

/-! ### eSerialize -/

@[simp] theorem eSerialize_h (s : State) : (eSerialize s).h = s.h := rfl
@[simp] theorem eSerialize_v (s : State) : (eSerialize s).v = s.v := rfl
@[simp] theorem eSerialize_t (s : State) : (eSerialize s).t = s.t := rfl
@[simp] theorem eSerialize_w (s : State) : (eSerialize s).w = s.w := rfl
@[simp] theorem eSerialize_buf (s : State) : (eSerialize s).buf = s.buf := rfl
@[simp] theorem eSerialize_ptr (s : State) : (eSerialize s).ptr = s.ptr := rfl
@[simp] theorem eSerialize_len (s : State) : (eSerialize s).len = s.len := rfl
@[simp] theorem eSerialize_padcnt (s : State) : (eSerialize s).padcnt = s.padcnt := rfl
@[simp] theorem eSerialize_phase (s : State) : (eSerialize s).phase = s.phase := rfl
@[simp] theorem eSerialize_cause (s : State) : (eSerialize s).cause = s.cause := rfl
@[simp] theorem eSerialize_digest (s : State) : (eSerialize s).digest = serializeState s.h := rfl
@[simp] theorem eSerialize_inputs (s : State) : (eSerialize s).inputs = s.inputs := rfl
@[simp] theorem eSerialize_draws (s : State) : (eSerialize s).draws = s.draws := rfl

/-! ### pNew -/

@[simp] theorem pNew_h (o : Len) (s : State) : (pNew o s).h = s.h := rfl
@[simp] theorem pNew_v (o : Len) (s : State) : (pNew o s).v = s.v := rfl
@[simp] theorem pNew_t (o : Len) (s : State) : (pNew o s).t = s.t := rfl
@[simp] theorem pNew_w (o : Len) (s : State) : (pNew o s).w = s.w := rfl
@[simp] theorem pNew_buf (o : Len) (s : State) : (pNew o s).buf = s.buf := rfl
@[simp] theorem pNew_ptr (o : Len) (s : State) : (pNew o s).ptr = 0 := rfl
@[simp] theorem pNew_len (o : Len) (s : State) : (pNew o s).len = o := rfl
@[simp] theorem pNew_padcnt (o : Len) (s : State) : (pNew o s).padcnt = 0 := rfl
@[simp] theorem pNew_phase (o : Len) (s : State) : (pNew o s).phase = s.phase := rfl
@[simp] theorem pNew_cause (o : Len) (s : State) : (pNew o s).cause = s.cause := rfl
@[simp] theorem pNew_digest (o : Len) (s : State) : (pNew o s).digest = s.digest := rfl
@[simp] theorem pNew_inputs (o : Len) (s : State) : (pNew o s).inputs = s.inputs := rfl
@[simp] theorem pNew_draws (o : Len) (s : State) : (pNew o s).draws = s.draws := rfl

/-! ### setPhase -/

@[simp] theorem setPhase_h (p : Phase) (s : State) : (setPhase p s).h = s.h := rfl
@[simp] theorem setPhase_v (p : Phase) (s : State) : (setPhase p s).v = s.v := rfl
@[simp] theorem setPhase_t (p : Phase) (s : State) : (setPhase p s).t = s.t := rfl
@[simp] theorem setPhase_w (p : Phase) (s : State) : (setPhase p s).w = s.w := rfl
@[simp] theorem setPhase_buf (p : Phase) (s : State) : (setPhase p s).buf = s.buf := rfl
@[simp] theorem setPhase_ptr (p : Phase) (s : State) : (setPhase p s).ptr = s.ptr := rfl
@[simp] theorem setPhase_len (p : Phase) (s : State) : (setPhase p s).len = s.len := rfl
@[simp] theorem setPhase_padcnt (p : Phase) (s : State) : (setPhase p s).padcnt = s.padcnt := rfl
@[simp] theorem setPhase_phase (p : Phase) (s : State) : (setPhase p s).phase = p := rfl
@[simp] theorem setPhase_cause (p : Phase) (s : State) : (setPhase p s).cause = s.cause := rfl
@[simp] theorem setPhase_digest (p : Phase) (s : State) : (setPhase p s).digest = s.digest := rfl
@[simp] theorem setPhase_inputs (p : Phase) (s : State) : (setPhase p s).inputs = s.inputs := rfl
@[simp] theorem setPhase_draws (p : Phase) (s : State) : (setPhase p s).draws = s.draws := rfl

/-! ### enterFault -/

@[simp] theorem enterFault_h (c : Cause) (s : State) : (enterFault c s).h = s.h := rfl
@[simp] theorem enterFault_v (c : Cause) (s : State) : (enterFault c s).v = s.v := rfl
@[simp] theorem enterFault_t (c : Cause) (s : State) : (enterFault c s).t = s.t := rfl
@[simp] theorem enterFault_w (c : Cause) (s : State) : (enterFault c s).w = s.w := rfl
@[simp] theorem enterFault_buf (c : Cause) (s : State) : (enterFault c s).buf = s.buf := rfl
@[simp] theorem enterFault_ptr (c : Cause) (s : State) : (enterFault c s).ptr = s.ptr := rfl
@[simp] theorem enterFault_len (c : Cause) (s : State) : (enterFault c s).len = s.len := rfl
@[simp] theorem enterFault_padcnt (c : Cause) (s : State) : (enterFault c s).padcnt = s.padcnt := rfl
@[simp] theorem enterFault_phase (c : Cause) (s : State) : (enterFault c s).phase = .fault := rfl
@[simp] theorem enterFault_cause (c : Cause) (s : State) : (enterFault c s).cause = c := rfl
@[simp] theorem enterFault_digest (c : Cause) (s : State) : (enterFault c s).digest = s.digest := rfl
@[simp] theorem enterFault_inputs (c : Cause) (s : State) : (enterFault c s).inputs = s.inputs := rfl
@[simp] theorem enterFault_draws (c : Cause) (s : State) : (enterFault c s).draws = s.draws := rfl

/-! ### resetCore -/

@[simp] theorem resetCore_h (s : State) : (resetCore s).h = Config.freeH s.draws := rfl
@[simp] theorem resetCore_v (s : State) : (resetCore s).v = Config.freeV s.draws := rfl
@[simp] theorem resetCore_t (s : State) : (resetCore s).t = Config.freeT s.draws := rfl
@[simp] theorem resetCore_w (s : State) : (resetCore s).w = Config.freeW s.draws := rfl
@[simp] theorem resetCore_buf (s : State) : (resetCore s).buf = [] := rfl
@[simp] theorem resetCore_ptr (s : State) : (resetCore s).ptr = Config.freePtr s.draws := rfl
@[simp] theorem resetCore_len (s : State) : (resetCore s).len = Config.freeLen s.draws := rfl
@[simp] theorem resetCore_padcnt (s : State) : (resetCore s).padcnt = Config.freePadcnt s.draws := rfl
@[simp] theorem resetCore_phase (s : State) : (resetCore s).phase = .idle := rfl
@[simp] theorem resetCore_cause (s : State) : (resetCore s).cause = .none := rfl
@[simp] theorem resetCore_digest (s : State) : (resetCore s).digest = Config.freeDigest s.draws := rfl
@[simp] theorem resetCore_inputs (s : State) : (resetCore s).inputs = s.inputs := rfl
@[simp] theorem resetCore_draws (s : State) : (resetCore s).draws = s.draws + 1 := rfl

/-! ### unspecifyPadding -/

@[simp] theorem unspecifyPadding_h (s : State) : (unspecifyPadding s).h = Config.freeH s.draws := rfl
@[simp] theorem unspecifyPadding_v (s : State) : (unspecifyPadding s).v = Config.freeV s.draws := rfl
@[simp] theorem unspecifyPadding_t (s : State) : (unspecifyPadding s).t = s.t := rfl
@[simp] theorem unspecifyPadding_w (s : State) : (unspecifyPadding s).w = Config.freeW s.draws := rfl
@[simp] theorem unspecifyPadding_buf (s : State) :
    (unspecifyPadding s).buf = (List.range Config.blockBytes).map (fun a => (a, Config.freeBuf s.draws a)) := rfl
@[simp] theorem unspecifyPadding_ptr (s : State) : (unspecifyPadding s).ptr = s.ptr := rfl
@[simp] theorem unspecifyPadding_len (s : State) : (unspecifyPadding s).len = s.len := rfl
@[simp] theorem unspecifyPadding_padcnt (s : State) : (unspecifyPadding s).padcnt = Config.freePadcnt s.draws := rfl
@[simp] theorem unspecifyPadding_phase (s : State) : (unspecifyPadding s).phase = s.phase := rfl
@[simp] theorem unspecifyPadding_cause (s : State) : (unspecifyPadding s).cause = s.cause := rfl
@[simp] theorem unspecifyPadding_digest (s : State) : (unspecifyPadding s).digest = Config.freeDigest s.draws := rfl
@[simp] theorem unspecifyPadding_inputs (s : State) : (unspecifyPadding s).inputs = s.inputs := rfl
@[simp] theorem unspecifyPadding_draws (s : State) : (unspecifyPadding s).draws = s.draws + 1 := rfl

@[simp] theorem pEnd_eq (s : State) : pEnd s = s := rfl

end Sys2Proof.Machine
end

