-- ==== Sys2Proof/Laws/Engine.lean ====
section
/-! SUPPORT. What the engine's operations can do: the loads, the expansion, the rounds, and E_COMPRESS as a function
of H and the 64 bytes of BUF (`42_engine.md` rules R182 to R187). -/

namespace Sys2Proof.Machine

open Sys2Proof.Safety

/-! ### E_LOADW -/

/-- Word `t` of a block (rule R182). -/
def blockWord (block : List Byte) (t : Nat) : Word :=
  be32dec (block.getD (4 * t) 0) (block.getD (4 * t + 1) 0) (block.getD (4 * t + 2) 0) (block.getD (4 * t + 3) 0)

theorem holdsBytes_read_getD {m : Memory} {block : List Byte} (h : HoldsBytes m block) {i : Nat}
    (hi : i < block.length) : m.read i = some (block.getD i 0) := by
  refine h i _ ?_
  rw [List.getElem?_eq_getElem hi, List.getD_eq_getElem _ _ hi]

theorem eLoadWord_ok {s : State} {block : List Byte} (hl : block.length = 64) (hb : HoldsBytes s.buf block)
    (t : Fin 16) :
    eLoadWord t s =
      .ok { s with w := s.w.set t.val (blockWord block t.val) (Nat.lt_trans t.isLt (by decide)) } := by
  have ht := t.isLt
  rw [eLoadWord, memRead4_ok (by omega) (by omega) (holdsBytes_read_getD hb (i := 4 * t.val) (by omega))
    (holdsBytes_read_getD hb (i := 4 * t.val + 1) (by omega)) (holdsBytes_read_getD hb (i := 4 * t.val + 2) (by omega))
    (holdsBytes_read_getD hb (i := 4 * t.val + 3) (by omega))]
  rfl

/-- W after some of its first 16 words have been loaded. -/
def loadWords (block : List Byte) (l : List (Fin 16)) (w : Vector Word 64) : Vector Word 64 :=
  l.foldl (fun w t => w.set t.val (blockWord block t.val) (Nat.lt_trans t.isLt (by decide))) w

theorem loadWords_getElem (block : List Byte) (l : List (Fin 16)) (w : Vector Word 64) (i : Nat) (hi : i < 64) :
    (loadWords block l w)[i] = if ∃ t ∈ l, t.val = i then blockWord block i else w[i] := by
  induction l generalizing w with
  | nil => simp [loadWords]
  | cons t l ih =>
    rw [loadWords, List.foldl_cons]
    refine (ih _).trans ?_
    by_cases h : ∃ u ∈ l, u.val = i
    · rw [if_pos h, if_pos]
      obtain ⟨u, hu, rfl⟩ := h
      exact ⟨u, List.mem_cons_of_mem _ hu, rfl⟩
    · rw [if_neg h, Vector.getElem_set]
      by_cases ht : t.val = i
      · subst ht; simp
      · rw [if_neg ht, if_neg]
        rintro ⟨u, hu, rfl⟩
        rcases List.mem_cons.1 hu with rfl | hu
        · exact ht rfl
        · exact h ⟨u, hu, rfl⟩

theorem foldlM_eLoadWord_ok {block : List Byte} (hl : block.length = 64) (l : List (Fin 16)) (s : State)
    (hb : HoldsBytes s.buf block) :
    l.foldlM (fun s t => eLoadWord t s) s = .ok { s with w := loadWords block l s.w } := by
  induction l generalizing s with
  | nil => rfl
  | cons t l ih =>
    rw [List.foldlM_cons, eLoadWord_ok hl hb]
    exact ih _ hb

/-- E_LOADW when BUF holds a whole block: only W changes. -/
theorem eLoadW_ok {s : State} {block : List Byte} (hl : block.length = 64) (hb : HoldsBytes s.buf block) :
    eLoadW s = .ok { s with w := loadWords block (List.finRange 16) s.w } :=
  foldlM_eLoadWord_ok hl _ s hb

theorem loadWords_all (block : List Byte) (w : Vector Word 64) (i : Nat) (hi : i < 64) :
    (loadWords block (List.finRange 16) w)[i] = if i < 16 then blockWord block i else w[i] := by
  rw [loadWords_getElem]
  by_cases h : i < 16
  · rw [if_pos h, if_pos ⟨⟨i, h⟩, List.mem_finRange _, rfl⟩]
  · rw [if_neg h, if_neg]
    rintro ⟨t, -, rfl⟩
    exact h t.isLt

/-- The words of a block of 64 bytes, one by one. -/
theorem blockWords_eq (k : Nat) (block : List Byte) (hl : block.length = 4 * k) :
    blockWords block = (List.range k).map (blockWord block) := by
  induction k generalizing block with
  | zero =>
    have : block = [] := List.length_eq_zero_iff.1 hl
    subst this; rfl
  | succ k ih =>
    match block, hl with
    | b0 :: b1 :: b2 :: b3 :: rest, hl =>
      simp only [List.length_cons] at hl
      rw [blockWords, ih rest (by omega), List.range_succ_eq_map, List.map_cons, List.map_map]
      refine congrArg₂ _ rfl (List.map_congr_left fun t _ => ?_)
      simp only [Function.comp, blockWord, Nat.succ_eq_add_one]
      rw [show 4 * (t + 1) = 4 * t + 1 + 1 + 1 + 1 by omega]
      simp only [List.getD_cons_succ]

/-! ### E_EXPAND -/

/-- The next word, read off the part of W already derived. -/
theorem nextWord_take (s : State) (ht : 16 ≤ s.t.toNat) :
    nextWord (s.w.toList.take s.t.toNat) = expandWord s := by
  have hlt : s.t.toNat < 64 := s.t.isLt
  have hlen : (s.w.toList.take s.t.toNat).length = s.t.toNat := by
    simp only [List.length_take, Vector.length_toList]; omega
  have hget : ∀ k, 1 ≤ k → (s.w.toList.take s.t.toNat).getD (s.t.toNat - k) 0 = wBack s k := by
    intro k hk
    have : s.t.toNat - k < (s.w.toList.take s.t.toNat).length := by rw [hlen]; omega
    rw [List.getD_eq_getElem _ _ this, List.getElem_take, Vector.getElem_toList]
    rfl
  simp only [nextWord, hlen, expandWord, hget 16 (by omega), hget 15 (by omega), hget 7 (by omega),
    hget 2 (by omega)]

/-- What the expansion of `n, n+1, ..., 63` leaves unchanged, and what W becomes. -/
theorem expand_from (k n : Nat) (s : State) (h16 : 16 ≤ n) (hn : n + k = 64) :
    ∃ w t, (List.range' n k).foldl (fun s t => eExpand (setT t s)) s = { s with w := w, t := t } ∧
      w.toList = extendSchedule k (s.w.toList.take n) := by
  induction k generalizing n s with
  | zero =>
    refine ⟨s.w, s.t, rfl, ?_⟩
    rw [extendSchedule, List.take_of_length_le (by simp only [Vector.length_toList]; omega)]
  | succ k ih =>
    rw [List.range'_succ, List.foldl_cons]
    obtain ⟨w, t, he, hw⟩ := ih (n + 1) (eExpand (setT n s)) (by omega) (by omega)
    refine ⟨w, t, by rw [he]; rfl, ?_⟩
    rw [hw, extendSchedule]
    congr 1
    have htn : (setT n s).t.toNat = n := by
      show (BitVec.ofNat 6 n).toNat = n
      rw [BitVec.toNat_ofNat]; omega
    have hnext := nextWord_take (setT n s) (by omega)
    rw [htn] at hnext
    have hw' : (eExpand (setT n s)).w.toList = s.w.toList.set n (expandWord (setT n s)) := by
      simp only [eExpand_w, htn, Vector.toList_set, setT_w]
    rw [hw', ← hnext, setT_w, List.take_add_one, List.take_set_of_le (Nat.le_refl n)]
    congr 1
    rw [List.getElem?_set_self (by simp only [Vector.length_toList]; omega)]
    rfl

/-- `for T in 16..63: E_EXPAND(T)` after the block is loaded. -/
theorem expandAll_eq (s : State) (block : List Byte) (hl : block.length = 64) (w0 : Vector Word 64)
    (hw : s.w = loadWords block (List.finRange 16) w0) :
    ∃ w t, expandAll s = { s with w := w, t := t } ∧ w.toList = schedule block := by
  obtain ⟨w, t, he, hx⟩ := expand_from 48 16 s (Nat.le_refl _) rfl
  refine ⟨w, t, he, hx.trans ?_⟩
  rw [schedule]
  congr 1
  rw [blockWords_eq 16 block hl]
  apply List.ext_getElem
  · simp
  · intro i h1 h2
    have hi : i < 16 := by simpa using h2
    rw [List.getElem_take, Vector.getElem_toList, List.getElem_map, List.getElem_range]
    simp only [hw]
    rw [loadWords_all, if_pos hi]

/-! ### E_ROUND -/

/-- One round of the machine is one round of the function on named variables. -/
theorem seedVars_eRound (s : State) (t : Nat) (ht : t < 64) :
    seedVars (eRound (setT t s)).v = roundVars (seedVars s.v) (kRom[t], s.w[t]) := by
  have htn : (setT t s).t.toNat = t := by
    show (BitVec.ofNat 6 t).toNat = t
    rw [BitVec.toNat_ofNat]; omega
  simp only [eRound_v, roundV, seedVars, roundVars, roundT1, roundT2, htn, setT_v, setT_w]
  rfl

/-- What the rounds on a list of indices leave unchanged, and what V becomes. -/
theorem rounds_on (l : List Nat) (hl : ∀ t ∈ l, t < 64) (s : State) :
    ∃ v t, l.foldl (fun s t => eRound (setT t s)) s = { s with v := v, t := t } ∧
      seedVars v = (l.map (fun t => (kRom.toList.getD t 0, s.w.toList.getD t 0))).foldl roundVars (seedVars s.v) ∧
      t = (l.map (BitVec.ofNat 6)).getLastD s.t := by
  induction l generalizing s with
  | nil => exact ⟨s.v, s.t, rfl, rfl, rfl⟩
  | cons a l ih =>
    have ha : a < 64 := hl a (List.mem_cons_self ..)
    obtain ⟨v, t, he, hv, ht⟩ := ih (fun t ht => hl t (List.mem_cons_of_mem _ ht)) (eRound (setT a s))
    refine ⟨v, t, by rw [List.foldl_cons, he]; rfl, ?_, by rw [ht, List.map_cons, List.getLastD_cons]; rfl⟩
    rw [hv, seedVars_eRound s a ha, List.map_cons, List.foldl_cons, eRound_w, setT_w,
      List.getD_eq_getElem kRom.toList _ (by simpa using ha), List.getD_eq_getElem s.w.toList _ (by simpa using ha),
      Vector.getElem_toList, Vector.getElem_toList]

/-- `for T in 0..63: E_ROUND(T)`. -/
theorem roundAll_eq (s : State) :
    ∃ v t, roundAll s = { s with v := v, t := t } ∧
      seedVars v = (kRom.toList.zip s.w.toList).foldl roundVars (seedVars s.v) ∧ t = 63 := by
  obtain ⟨v, t, he, hv, ht⟩ := rounds_on (List.range 64) (fun t ht => List.mem_range.1 ht) s
  refine ⟨v, t, he, hv.trans ?_, ht⟩
  congr 1
  apply List.ext_getElem
  · simp
  · intro i h1 h2
    have hi : i < 64 := by simpa using h1
    rw [List.getElem_map, List.getElem_range, List.getElem_zip,
      List.getD_eq_getElem kRom.toList _ (by simpa using hi), List.getD_eq_getElem s.w.toList _ (by simpa using hi)]

/-- The named variables are V, in its order. -/
@[simp] theorem words_seedVars (v : Vector Word 8) : (seedVars v).words = v := by
  apply Vector.ext
  intro i hi
  rcases i with _ | _ | _ | _ | _ | _ | _ | _ | i
  all_goals first | rfl | omega

theorem zipWith_add32_eq (h v : Vector Word 8) : Vector.zipWith add32 h v = addVars h (seedVars v) := by
  rw [addVars, words_seedVars]

/-! ### E_COMPRESS -/

/-- E_COMPRESS on a whole block: H by the compression function; W, V and T are scratch, set from H and the block alone;
nothing else changes. -/
theorem eCompress_ok {s : State} {block : List Byte} (hl : block.length = 64) (hb : HoldsBytes s.buf block) :
    ∃ w v t, eCompress s = .ok { s with h := compress s.h block, w := w, v := v, t := t } ∧
      w.toList = schedule block ∧
      seedVars v = (kRom.toList.zip (schedule block)).foldl roundVars (seedVars s.h) ∧ t = 63 := by
  obtain ⟨w, t, he, hw⟩ := expandAll_eq { s with w := loadWords block (List.finRange 16) s.w } block hl s.w rfl
  obtain ⟨v, t', hr, hv, ht⟩ := roundAll_eq (eSeed { s with w := w, t := t })
  have hv' : seedVars v = (kRom.toList.zip (schedule block)).foldl roundVars (seedVars s.h) := by
    rw [hv, ← hw]; rfl
  refine ⟨w, v, t', ?_, hw, hv', ht⟩
  rw [eCompress, eLoadW_ok hl hb]
  show Except.ok (eAddback (roundAll (eSeed (expandAll _)))) = _
  rw [he]
  show Except.ok (eAddback (roundAll (eSeed { s with w := w, t := t }))) = _
  rw [hr]
  have hh : Vector.zipWith add32 s.h v = compress s.h block := by
    rw [zipWith_add32_eq, hv', compress]
  rw [← hh]
  rfl

end Sys2Proof.Machine
end

