-- ==== Sys2Proof/Laws/Padder.lean ====
section
/-! SUPPORT. What the padder's operations can do (`41_padder.md` rules R150 to R161): P_ABSORB inside a block and on
its last byte, P_PAD in its two cases, each as a function of the bytes BUF holds. -/

namespace Sys2Proof.Machine

open Sys2Proof.Safety

/-- A micro-operation that ended well hands its result on. -/
theorem ok_bind {α β : Type} (a : α) (f : α → Except Trap β) : (Except.ok a >>= f) = f a := rfl

/-! ### The bytes BUF holds -/

theorem holdsBytes_nil (m : Memory) : HoldsBytes m [] := by
  intro i b h; simp at h

/-- Bytes written right after those held are held as well. -/
theorem holdsBytes_append {m : Memory} {bs : List Byte} (h : HoldsBytes m bs) (bs' : List Byte) :
    HoldsBytes (m.writeBytes bs.length bs') (bs ++ bs') := by
  intro i b hi
  rw [Memory.read_writeBytes]
  by_cases hlt : i < bs.length
  · rw [List.getElem?_append_left hlt] at hi
    rw [if_neg (by omega)]
    exact h i b hi
  · rw [List.getElem?_append_right (by omega)] at hi
    have : i - bs.length < bs'.length := by
      by_contra hc
      rw [List.getElem?_eq_none (by omega)] at hi
      exact absurd hi (by simp)
    rw [if_pos (by omega), hi]

/-- One byte written right after those held is held as well. -/
theorem holdsBytes_snoc {m : Memory} {bs : List Byte} (h : HoldsBytes m bs) (b : Byte) :
    HoldsBytes (m.write bs.length b) (bs ++ [b]) := by
  have := holdsBytes_append h [b]
  rwa [Memory.writeBytes_cons, Memory.writeBytes_nil] at this

/-- Written bytes are some bytes. -/
theorem writtenBelow_holds {m : Memory} {n : Nat} (h : WrittenBelow m n) :
    ∃ bs : List Byte, bs.length = n ∧ HoldsBytes m bs := by
  refine ⟨(List.range n).map (fun a => (m.read a).getD 0), by simp, ?_⟩
  intro i b hi
  rw [List.getElem?_map] at hi
  have hin : i < n := by
    by_contra hc
    rw [List.getElem?_eq_none (by simpa using hc)] at hi
    simp at hi
  rw [List.getElem?_range hin] at hi
  obtain ⟨x, hx⟩ := Option.isSome_iff_exists.1 (h i hin)
  simpa [hx] using hi

theorem writtenBelow_of_holds {m : Memory} {bs : List Byte} (h : HoldsBytes m bs) : WrittenBelow m bs.length := by
  intro a ha
  rw [holdsBytes_read_getD h ha]; rfl

/-! ### P_ABSORB -/

theorem pAbsorb_overflow {s : State} (b : Byte) (h : lenOverflows s.len = true) :
    pAbsorb b s = .error (.raised .lengthOverflow) := by
  rw [pAbsorb, if_pos h]

/-- A byte that does not complete its block (rule R151). -/
theorem pAbsorb_inside {s : State} (b : Byte) (h : lenOverflows s.len = false) (hp : s.ptr ≠ 63) :
    pAbsorb b s = .ok { s with buf := s.buf.write s.ptr.toNat b, len := s.len + 8, ptr := s.ptr + 1 } := by
  rw [pAbsorb, if_neg (by simp [h]), memWrite1_ok s.ptr.isLt]
  show (if s.ptr = 63 then _ else _) = _
  rw [if_neg hp]

/-- The byte that completes a block has it compressed (rule R151). -/
theorem pAbsorb_full {s : State} (b : Byte) (h : lenOverflows s.len = false) (hp : s.ptr = 63) {bs : List Byte}
    (hl : bs.length = 63) (hb : HoldsBytes s.buf bs) :
    ∃ w v t, pAbsorb b s = .ok { s with
      h := compress s.h (bs ++ [b]), w := w, v := v, t := t, buf := s.buf.write 63 b, len := s.len + 8, ptr := 0 } := by
  have hb' : HoldsBytes (s.buf.write 63 b) (bs ++ [b]) := by
    have := holdsBytes_snoc hb b
    rwa [hl] at this
  obtain ⟨w, v, t, hc, -⟩ := eCompress_ok (s := { s with buf := s.buf.write 63 b, len := s.len + 8 })
    (by simp [hl]) hb'
  refine ⟨w, v, t, ?_⟩
  rw [pAbsorb, if_neg (by simp [h]), memWrite1_ok s.ptr.isLt]
  show (if s.ptr = 63 then _ else _) = _
  rw [if_pos hp, show s.ptr.toNat = 63 by rw [hp]; rfl, hc]
  rfl

/-! ### P_PAD -/

/-- BUF after the one-block case (rule R155). -/
def padBufOne (m : Memory) (p : Nat) (l : Len) : Memory :=
  ((m.write p 0x80).writeBytes (p + 1) (List.replicate (55 - p) 0x00)).writeBytes 56 (be64enc l).toList

/-- BUF after the first block of the two-block case (rule R156). -/
def padBufFirst (m : Memory) (p : Nat) : Memory :=
  (m.write p 0x80).writeBytes (p + 1) (List.replicate (63 - p) 0x00)

/-- BUF after the second block of the two-block case (rule R156). -/
def padBufSecond (m : Memory) (p : Nat) (l : Len) : Memory :=
  ((padBufFirst m p).writeBytes 0 (List.replicate 56 0x00)).writeBytes 56 (be64enc l).toList

/-- The one padding block of rule R155. -/
def blockOne (bs : List Byte) (l : Len) : List Byte :=
  bs ++ 0x80 :: (List.replicate (55 - bs.length) 0x00 ++ (be64enc l).toList)

/-- The first of two padding blocks (rule R156). -/
def blockFirst (bs : List Byte) : List Byte := bs ++ 0x80 :: List.replicate (63 - bs.length) 0x00

/-- The second of two padding blocks (rule R156). -/
def blockSecond (l : Len) : List Byte := List.replicate 56 0x00 ++ (be64enc l).toList

theorem be64enc_length (l : Len) : (be64enc l).toList.length = 8 := Vector.length_toList

theorem blockOne_length {bs : List Byte} (l : Len) (h : bs.length ≤ 55) : (blockOne bs l).length = 64 := by
  simp only [blockOne, List.length_append, List.length_cons, List.length_replicate, be64enc_length]; omega

theorem blockFirst_length {bs : List Byte} (h : bs.length ≤ 63) : (blockFirst bs).length = 64 := by
  simp only [blockFirst, List.length_append, List.length_cons, List.length_replicate]; omega

theorem blockSecond_length (l : Len) : (blockSecond l).length = 64 := by
  simp only [blockSecond, List.length_append, List.length_replicate, be64enc_length]

theorem holds_padBufOne {m : Memory} {bs : List Byte} (hb : HoldsBytes m bs) (h : bs.length ≤ 55) (l : Len) :
    HoldsBytes (padBufOne m bs.length l) (blockOne bs l) := by
  have h1 := holdsBytes_append (holdsBytes_snoc hb 0x80) (List.replicate (55 - bs.length) 0x00)
  have h2 := holdsBytes_append h1 (be64enc l).toList
  have e1 : (bs ++ [(0x80 : Byte)]).length = bs.length + 1 := by simp
  have e2 : (bs ++ [(0x80 : Byte)] ++ List.replicate (55 - bs.length) 0x00).length = 56 := by
    simp only [List.length_append, List.length_replicate, List.length_singleton]; omega
  rw [e1] at h2
  rw [e2] at h2
  simpa [padBufOne, blockOne] using h2

theorem holds_padBufFirst {m : Memory} {bs : List Byte} (hb : HoldsBytes m bs) :
    HoldsBytes (padBufFirst m bs.length) (blockFirst bs) := by
  have h1 := holdsBytes_append (holdsBytes_snoc hb 0x80) (List.replicate (63 - bs.length) 0x00)
  have e1 : (bs ++ [(0x80 : Byte)]).length = bs.length + 1 := by simp
  rw [e1] at h1
  simpa [padBufFirst, blockFirst] using h1

theorem holds_padBufSecond (m : Memory) (p : Nat) (l : Len) :
    HoldsBytes (padBufSecond m p l) (blockSecond l) := by
  have h1 := holdsBytes_append (holdsBytes_nil (padBufFirst m p)) (List.replicate 56 0x00)
  have h2 := holdsBytes_append h1 (be64enc l).toList
  simpa [padBufSecond, blockSecond] using h2

/-- Handing over a whole block. -/
theorem padBlock_ok {s : State} {block : List Byte} (hl : block.length = 64) (hb : HoldsBytes s.buf block) :
    ∃ w v t, padBlock s =
      .ok { s with h := compress s.h block, w := w, v := v, t := t, padcnt := s.padcnt + 1 } := by
  obtain ⟨w, v, t, hc, -⟩ := eCompress_ok hl hb
  exact ⟨w, v, t, by rw [padBlock, hc]; rfl⟩

/-- The check of rule R161 in the one-block case asks for PADCNT = 1. -/
theorem paddingOk_one {p : Nat} (h : p ≤ 55) (c : BitVec 2) : paddingOk p (padLength p) c = (c == 1) := by
  have e : p + padLength p = 64 := by
    rw [padLength, if_pos (show p ≤ Config.padOneBlockMax from h)]
    simp only [Config.padOneBlockMax, rangeCount]; omega
  have h' : ¬ p ≥ 56 := by omega
  simp [paddingOk, e, h, h']

/-- The check of rule R161 in the two-block case asks for PADCNT = 2. -/
theorem paddingOk_two {p : Nat} (h : 56 ≤ p) (h' : p ≤ 63) (c : BitVec 2) :
    paddingOk p (padLength p) c = (c == 2) := by
  have hn : ¬ p ≤ 55 := by omega
  have e : p + padLength p = 128 := by
    rw [padLength, if_neg (show ¬ p ≤ Config.padOneBlockMax from hn)]
    simp only [Config.padOneBlockMax, rangeCount]; omega
  simp [paddingOk, e, h, hn]

/-- P_PAD with at most 55 bytes in the block (rules R155, R161). -/
theorem pPad_one {s : State} {bs : List Byte} (hb : HoldsBytes s.buf bs) (hp : s.ptr.toNat = bs.length)
    (h : bs.length ≤ 55) :
    ∃ w v t, pPad s = if s.padcnt + 1 = 1 then
        .ok { s with h := compress s.h (blockOne bs s.len), w := w, v := v, t := t,
                     buf := padBufOne s.buf bs.length s.len, padcnt := s.padcnt + 1 }
      else .error (.raised .paddingInvariantViolation) := by
  obtain ⟨w, v, t, hc⟩ := padBlock_ok (s := { s with buf := padBufOne s.buf bs.length s.len })
    (blockOne_length s.len h) (holds_padBufOne hb h s.len)
  refine ⟨w, v, t, ?_⟩
  have hpo : padOne bs.length s.len { s with buf := s.buf.write bs.length 0x80 } =
      padBlock { s with buf := padBufOne s.buf bs.length s.len } := by
    rw [padOne, zeroFill_ok _ _ _ (by simp only [rangeCount, Config.padOneBlockMax]; omega)]
    have e : rangeCount (bs.length + 1) Config.padOneBlockMax = 55 - bs.length := by
      simp only [rangeCount, Config.padOneBlockMax]; omega
    rw [e]
    rfl
  rw [pPad]
  simp only [hp]
  rw [memWrite1_ok (by omega)]
  simp only [ok_bind]
  rw [padBlocks, if_pos (show bs.length ≤ Config.padOneBlockMax from h), hpo, hc]
  show (if paddingOk bs.length (padLength bs.length) (s.padcnt + 1) = true then _ else _) = _
  rw [paddingOk_one h]
  simp only [beq_iff_eq]

/-- P_PAD with 56 bytes or more in the block (rules R156, R161). -/
theorem pPad_two {s : State} {bs : List Byte} (hb : HoldsBytes s.buf bs) (hp : s.ptr.toNat = bs.length)
    (h : 56 ≤ bs.length) (h' : bs.length ≤ 63) :
    ∃ w v t, pPad s = if s.padcnt + 1 + 1 = 2 then
        .ok { s with h := compress (compress s.h (blockFirst bs)) (blockSecond s.len), w := w, v := v, t := t,
                     buf := padBufSecond s.buf bs.length s.len, padcnt := s.padcnt + 1 + 1 }
      else .error (.raised .paddingInvariantViolation) := by
  obtain ⟨w1, v1, t1, hc1⟩ := padBlock_ok (s := { s with buf := padBufFirst s.buf bs.length })
    (blockFirst_length h') (holds_padBufFirst hb)
  have hb2 := holds_padBufSecond s.buf bs.length s.len
  generalize hm2 : padBufSecond s.buf bs.length s.len = m2 at hb2
  obtain ⟨w, v, t, hc⟩ := padBlock_ok
    (s := { s with h := compress s.h (blockFirst bs), w := w1, v := v1, t := t1, padcnt := s.padcnt + 1, buf := m2 })
    (blockSecond_length s.len) hb2
  refine ⟨w, v, t, ?_⟩
  have hpo : padTwo bs.length s.len { s with buf := s.buf.write bs.length 0x80 } =
      padBlock { s with h := compress s.h (blockFirst bs), w := w1, v := v1, t := t1, padcnt := s.padcnt + 1,
                        buf := m2 } := by
    rw [← hm2, padTwo, zeroFill_ok _ _ _ (by simp only [rangeCount]; omega)]
    have e : rangeCount (bs.length + 1) 63 = 63 - bs.length := by simp only [rangeCount]; omega
    rw [e]
    simp only [ok_bind]
    rw [show (s.buf.write bs.length 0x80).writeBytes (bs.length + 1) (List.replicate (63 - bs.length) 0x00) =
      padBufFirst s.buf bs.length from rfl, hc1]
    simp only [ok_bind]
    rw [zeroFill_ok _ _ _ (by decide)]
    simp only [ok_bind, memWrite8_ok]
    rw [padBufSecond, show rangeCount 0 Config.padOneBlockMax = 56 from rfl]
  rw [pPad]
  simp only [hp]
  rw [memWrite1_ok (by omega)]
  simp only [ok_bind]
  rw [padBlocks, if_neg (show ¬ bs.length ≤ Config.padOneBlockMax from by simp only [Config.padOneBlockMax]; omega), hpo, hc]
  show (if paddingOk bs.length (padLength bs.length) (s.padcnt + 1 + 1) = true then _ else _) = _
  rw [paddingOk_two h h']
  simp only [beq_iff_eq]

end Sys2Proof.Machine
end

