-- ==== Sys2Proof/Laws/Commands.lean ====
section
/-! SUPPORT. What the frame of a command can do (`43_commands.md` rule R210), what `raise` writes (rule R249), and
what a step does with each kind of input. -/

namespace Sys2Proof.Machine

open Sys2Proof.Safety

/-! ### raise -/

@[simp] theorem raiseFault_phase (c : Cause) (s : State) : (raiseFault c s).phase = .fault := by cases c <;> rfl
@[simp] theorem raiseFault_cause (c : Cause) (s : State) : (raiseFault c s).cause = c := by cases c <;> rfl
@[simp] theorem raiseFault_t (c : Cause) (s : State) : (raiseFault c s).t = s.t := by cases c <;> rfl
@[simp] theorem raiseFault_ptr (c : Cause) (s : State) : (raiseFault c s).ptr = s.ptr := by cases c <;> rfl
@[simp] theorem raiseFault_len (c : Cause) (s : State) : (raiseFault c s).len = s.len := by cases c <;> rfl
@[simp] theorem raiseFault_inputs (c : Cause) (s : State) : (raiseFault c s).inputs = s.inputs := by cases c <;> rfl

/-- Every fault but the padding fault changes PHASE and CAUSE only. -/
theorem raiseFault_eq_enterFault {c : Cause} (h : c ≠ .paddingInvariantViolation) (s : State) :
    raiseFault c s = enterFault c s := by
  cases c <;> first | rfl | exact absurd rfl h

theorem enterFault_eq (c : Cause) (s : State) : enterFault c s = { s with phase := .fault, cause := c } := rfl

/-- The bytes a padding fault leaves in BUF stand in canonical form. -/
theorem unspecifyPadding_buf_wf (s : State) : (unspecifyPadding s).buf.wf := by
  rw [unspecifyPadding_buf]
  refine ⟨?_, fun c hc => ?_⟩
  · rw [List.pairwise_map]
    exact List.pairwise_lt_range
  · obtain ⟨a, ha, rfl⟩ := List.mem_map.1 hc
    exact List.mem_range.1 ha

/-! ### The frame of a command -/

variable {allowed : Phase → Bool} {body : State → Except Trap State} {s : State}

theorem runCommand_fault (h : s.phase = .fault) : runCommand allowed body s = .next s := by
  rw [runCommand, if_pos h]

theorem runCommand_refused (h : s.phase ≠ .fault) (ha : allowed s.phase = false) :
    runCommand allowed body s = .next (enterFault .protocolError s) := by
  rw [runCommand, if_neg h, if_neg (by simp [ha])]
  rfl

theorem runCommand_performed (h : s.phase ≠ .fault) (ha : allowed s.phase = true) :
    runCommand allowed body s = settle s (body s) := by
  rw [runCommand, if_neg h, if_pos ha]

@[simp] theorem settle_ok (s t : State) : settle s (.ok t) = .next t := rfl
@[simp] theorem settle_raised (s : State) (c : Cause) : settle s (.error (.raised c)) = .next (raiseFault c s) := rfl
@[simp] theorem settle_stopped (s : State) (f : Fault) : settle s (.error (.stopped f)) = .fault f := rfl

/-! ### The step on each kind of input -/

theorem step_reset {rest : List HostInput} (h : s.inputs = .reset :: rest) :
    step s = .next (resetCore { s with inputs := rest }) := by
  simp only [step, fetch, h, resetEvent]

theorem step_illegal {tx : Transaction} {rest : List HostInput} {why : Illegal}
    (h : s.inputs = .command tx :: rest) (hd : decode tx = .error why) :
    step s = illegalCommand { s with inputs := rest } := by
  simp only [step, fetch, h, hd]

/-! ### Inputs sent one after the other -/

/-- An input that is taken: the rest is sent from the state it leaves. -/
theorem send_cons {x : HostInput} {xs : List HostInput} {t : State} (h : step { s with inputs := x :: xs } = .next t)
    (hi : t.inputs = xs) : send s (x :: xs) = send t xs := by
  simp only [send, List.length_cons, Host.Core.run]
  rw [show Sys2Proof.core.step { s with inputs := x :: xs } = .next t from h]
  subst hi
  rfl

/-- A command that is performed: the rest is sent from the state it leaves. -/
theorem send_command {tx : Transaction} {i : Instr} {xs : List HostInput} {t : State} (hd : decode tx = .ok i)
    (h : exec i { s with inputs := xs } = .next t) (hi : t.inputs = xs) :
    send s (.command tx :: xs) = send t xs := by
  refine send_cons ?_ hi
  simp only [step, fetch, hd, h]

end Sys2Proof.Machine
end

