-- ==== Sys2Proof/Laws/Inversion.lean ====
section
/-! SUPPORT. The other direction: what follows when an operation has answered. E_COMPRESS answers only on a whole block
and raises nothing; P_ABSORB and P_PAD raise the one fault their rules name; a completed command went through its
body. -/

namespace Sys2Proof.Machine

open Sys2Proof.Safety

/-! ### Reads -/

theorem memRead1_inv {m : Memory} {a : Nat} {b : Byte} (h : memRead1 m a = .ok b) : m.read a = some b := by
  rw [memRead1_eq] at h
  split at h
  · split at h
    · rename_i x hx
      rw [hx]
      exact congrArg some (Except.ok.inj h)
    · cases h
  · cases h

theorem memRead1_stops {m : Memory} {a : Nat} {e : Trap} (h : memRead1 m a = .error e) : ∃ f, e = .stopped f := by
  rw [memRead1_eq] at h
  split at h
  · split at h
    · cases h
    · exact ⟨_, (Except.error.inj h).symm⟩
  · exact ⟨_, (Except.error.inj h).symm⟩

/-- A sequence of two operations answers only if both do. -/
theorem bind_ok_inv {α β : Type} {x : Except Trap α} {f : α → Except Trap β} {b : β} (h : (x >>= f) = .ok b) :
    ∃ a, x = .ok a ∧ f a = .ok b := by
  cases x with
  | ok a => exact ⟨a, rfl, h⟩
  | error e => cases h

/-- A sequence of two operations ends early where the first or the second does. -/
theorem bind_error_inv {α β : Type} {x : Except Trap α} {f : α → Except Trap β} {e : Trap}
    (h : (x >>= f) = .error e) : x = .error e ∨ ∃ a, x = .ok a ∧ f a = .error e := by
  cases x with
  | ok a => exact .inr ⟨a, rfl, h⟩
  | error e' => exact .inl (congrArg Except.error (Except.error.inj h))

theorem memRead4_inv {m : Memory} {a : Nat} {x : Word} (h : memRead4 m a = .ok x) :
    ∀ k, k < 4 → (m.read (a + k)).isSome = true := by
  rw [memRead4] at h
  split at h
  · obtain ⟨b0, h0, h⟩ := bind_ok_inv h
    obtain ⟨b1, h1, h⟩ := bind_ok_inv h
    obtain ⟨b2, h2, h⟩ := bind_ok_inv h
    obtain ⟨b3, h3, -⟩ := bind_ok_inv h
    intro k hk
    rcases k with _ | _ | _ | _ | k
    · rw [Nat.add_zero, memRead1_inv h0]; rfl
    · rw [memRead1_inv h1]; rfl
    · rw [memRead1_inv h2]; rfl
    · rw [memRead1_inv h3]; rfl
    · omega
  · cases h

theorem memRead4_stops {m : Memory} {a : Nat} {e : Trap} (h : memRead4 m a = .error e) : ∃ f, e = .stopped f := by
  rw [memRead4] at h
  split at h
  · rcases bind_error_inv h with h | ⟨b0, -, h⟩
    · exact memRead1_stops h
    rcases bind_error_inv h with h | ⟨b1, -, h⟩
    · exact memRead1_stops h
    rcases bind_error_inv h with h | ⟨b2, -, h⟩
    · exact memRead1_stops h
    rcases bind_error_inv h with h | ⟨b3, -, h⟩
    · exact memRead1_stops h
    · cases h
  · exact ⟨_, (Except.error.inj h).symm⟩

/-! ### E_COMPRESS -/

theorem foldlM_eLoadWord_inv (l : List (Fin 16)) (s : State) {t : State}
    (h : l.foldlM (fun s t => eLoadWord t s) s = .ok t) :
    ∀ i ∈ l, ∀ k, k < 4 → (s.buf.read (4 * i.val + k)).isSome = true := by
  induction l generalizing s with
  | nil => intro i hi; cases hi
  | cons j l ih =>
    rw [List.foldlM_cons] at h
    obtain ⟨u, hu, h⟩ := bind_ok_inv h
    obtain ⟨x, hx, hu⟩ := bind_ok_inv hu
    have hb : u.buf = s.buf := by rw [← Except.ok.inj hu]
    intro i hi
    rcases List.mem_cons.1 hi with rfl | hi
    · exact memRead4_inv hx
    · exact hb ▸ ih u h i hi

theorem foldlM_eLoadWord_stops (l : List (Fin 16)) (s : State) {e : Trap}
    (h : l.foldlM (fun s t => eLoadWord t s) s = .error e) : ∃ f, e = .stopped f := by
  induction l generalizing s with
  | nil => cases h
  | cons j l ih =>
    rw [List.foldlM_cons] at h
    rcases bind_error_inv h with h | ⟨u, -, h⟩
    · rcases bind_error_inv h with h | ⟨x, -, h⟩
      · exact memRead4_stops h
      · cases h
    · exact ih u h

/-- E_COMPRESS answers only when all 64 bytes of BUF are written. -/
theorem eCompress_inv {s t : State} (h : eCompress s = .ok t) : WrittenBelow s.buf 64 := by
  obtain ⟨u, hu, -⟩ := bind_ok_inv h
  intro a ha
  have := foldlM_eLoadWord_inv _ s hu ⟨a / 4, by omega⟩ (List.mem_finRange _) (a % 4) (by omega)
  rwa [show 4 * (a / 4) + a % 4 = a by omega] at this

/-- E_COMPRESS raises no fault of the core (rule R187). -/
theorem eCompress_stops {s : State} {e : Trap} (h : eCompress s = .error e) : ∃ f, e = .stopped f := by
  rcases bind_error_inv h with h | ⟨u, -, h⟩
  · exact foldlM_eLoadWord_stops _ s h
  · cases h

/-! ### P_ABSORB and P_PAD -/

/-- P_ABSORB raises LengthOverflow only, and only when LEN + 8 reaches 2^64 (rule R151). -/
theorem pAbsorb_raises {s : State} {b : Byte} {c : Cause} (h : pAbsorb b s = .error (.raised c)) :
    c = .lengthOverflow ∧ lenOverflows s.len = true := by
  rw [pAbsorb] at h
  split at h
  · rename_i ho
    cases h
    exact ⟨rfl, ho⟩
  · rw [memWrite1_ok s.ptr.isLt] at h
    simp only [ok_bind] at h
    split at h
    · rcases bind_error_inv h with h | ⟨u, -, h⟩
      · obtain ⟨f, hf⟩ := eCompress_stops h
        cases hf
      · cases h
    · cases h

/-- P_ABSORB answers in one of its two cases (rule R151). -/
theorem pAbsorb_inv {s t : State} {b : Byte} (h : pAbsorb b s = .ok t) :
    lenOverflows s.len = false ∧
    (s.ptr ≠ 63 ∧ t = { s with buf := s.buf.write s.ptr.toNat b, len := s.len + 8, ptr := s.ptr + 1 } ∨
      s.ptr = 63 ∧ ∃ bs : List Byte, bs.length = 63 ∧ HoldsBytes s.buf bs ∧ ∃ w v x, t =
        { s with h := compress s.h (bs ++ [b]), w := w, v := v, t := x, buf := s.buf.write 63 b, len := s.len + 8,
                 ptr := 0 }) := by
  have ho : lenOverflows s.len = false := by
    by_contra hc
    rw [pAbsorb_overflow b (by simpa using hc)] at h
    cases h
  refine ⟨ho, ?_⟩
  by_cases hp : s.ptr = 63
  · refine .inr ⟨hp, ?_⟩
    have hw : WrittenBelow s.buf 63 := by
      rw [pAbsorb, if_neg (by simp [ho]), memWrite1_ok s.ptr.isLt] at h
      simp only [ok_bind, if_pos hp] at h
      obtain ⟨u, hu, -⟩ := bind_ok_inv h
      intro a ha
      have := eCompress_inv hu a (by omega)
      simp only [Memory.read_write, show s.ptr.toNat = 63 by rw [hp]; rfl] at this
      rwa [if_neg (by omega)] at this
    obtain ⟨bs, hl, hb⟩ := writtenBelow_holds hw
    obtain ⟨w, v, x, he⟩ := pAbsorb_full b ho hp hl hb
    rw [he] at h
    exact ⟨bs, hl, hb, w, v, x, (Except.ok.inj h).symm⟩
  · rw [pAbsorb_inside b ho hp] at h
    exact .inl ⟨hp, (Except.ok.inj h).symm⟩

theorem memWrite1_stops {m : Memory} {a : Nat} {b : Byte} {e : Trap} (h : memWrite1 m a b = .error e) :
    ∃ f, e = .stopped f := by
  rw [memWrite1] at h
  split at h
  · cases h
  · exact ⟨_, (Except.error.inj h).symm⟩

theorem memWrite8_stops {m : Memory} {a : Nat} {v : Len} {e : Trap} (h : memWrite8 m a v = .error e) :
    ∃ f, e = .stopped f := by
  rw [memWrite8] at h
  split at h
  · cases h
  · exact ⟨_, (Except.error.inj h).symm⟩

theorem zeroFill_stops {m : Memory} {lo hi : Nat} {e : Trap} (h : zeroFill m lo hi = .error e) :
    ∃ f, e = .stopped f := by
  rw [zeroFill] at h
  generalize List.range' lo (rangeCount lo hi) = l at h
  induction l generalizing m with
  | nil => cases h
  | cons a l ih =>
    rw [List.foldlM_cons] at h
    rcases bind_error_inv h with h | ⟨u, -, h⟩
    · exact memWrite1_stops h
    · exact ih h

theorem padBlock_stops {s : State} {e : Trap} (h : padBlock s = .error e) : ∃ f, e = .stopped f := by
  rcases bind_error_inv h with h | ⟨u, -, h⟩
  · exact eCompress_stops h
  · cases h

/-- P_PAD raises PaddingInvariantViolation only (rule R153). -/
theorem pPad_raises {s : State} {c : Cause} (h : pPad s = .error (.raised c)) : c = .paddingInvariantViolation := by
  have key : ∀ e, (∃ f, e = Trap.stopped f) → e ≠ .raised c := by rintro e ⟨f, rfl⟩ hc; cases hc
  rw [pPad] at h
  rcases bind_error_inv h with h | ⟨m, -, h⟩
  · exact absurd rfl (key _ (memWrite1_stops h))
  rcases bind_error_inv h with h | ⟨u, -, h⟩
  · exfalso
    refine key _ ?_ rfl
    rw [padBlocks] at h
    split at h
    · rw [padOne] at h
      rcases bind_error_inv h with h | ⟨m1, -, h⟩
      · exact zeroFill_stops h
      rcases bind_error_inv h with h | ⟨m2, -, h⟩
      · exact memWrite8_stops h
      exact padBlock_stops h
    · rw [padTwo] at h
      rcases bind_error_inv h with h | ⟨m1, -, h⟩
      · exact zeroFill_stops h
      rcases bind_error_inv h with h | ⟨u1, -, h⟩
      · exact padBlock_stops h
      rcases bind_error_inv h with h | ⟨m2, -, h⟩
      · exact zeroFill_stops h
      rcases bind_error_inv h with h | ⟨m3, -, h⟩
      · exact memWrite8_stops h
      exact padBlock_stops h
  · split at h
    · cases h
    · cases h; rfl

/-- Below PTR the padding leaves the first block as it was. -/
theorem read_padBuf_below {m : Memory} {p n a k : Nat} (ha : a < p) (bs : List Byte) (hk : p ≤ k) :
    (((m.write p 0x80).writeBytes (p + 1) (List.replicate n 0x00)).writeBytes k bs).read a = m.read a := by
  rw [Memory.read_writeBytes, if_neg (by omega), Memory.read_writeBytes, if_neg (by omega), Memory.read_write,
    if_neg (by omega)]

/-- P_PAD answers only when every byte of the partial block is written. -/
theorem pPad_inv {s t : State} (h : pPad s = .ok t) : WrittenBelow s.buf s.ptr.toNat := by
  have hlt : s.ptr.toNat < 64 := s.ptr.isLt
  rw [pPad, memWrite1_ok hlt] at h
  simp only [ok_bind] at h
  obtain ⟨u, hu, -⟩ := bind_ok_inv h
  rw [padBlocks] at hu
  split at hu
  · rename_i hp
    simp only [Config.padOneBlockMax] at hp
    rw [padOne, zeroFill_ok _ _ _ (by simp only [rangeCount, Config.padOneBlockMax]; omega)] at hu
    simp only [ok_bind, memWrite8_ok] at hu
    obtain ⟨u1, hu1, -⟩ := bind_ok_inv hu
    intro a ha
    have := eCompress_inv hu1 a (by omega)
    rwa [read_padBuf_below ha _ (by omega)] at this
  · rename_i hp
    simp only [Config.padOneBlockMax] at hp
    rw [padTwo, zeroFill_ok _ _ _ (by simp only [rangeCount]; omega)] at hu
    simp only [ok_bind] at hu
    obtain ⟨u1, hu1, -⟩ := bind_ok_inv hu
    obtain ⟨u2, hu2, -⟩ := bind_ok_inv hu1
    intro a ha
    have := eCompress_inv hu2 a (by omega)
    rwa [Memory.read_writeBytes, if_neg (by omega), Memory.read_write, if_neg (by omega)] at this

end Sys2Proof.Machine
end

