-- ==== Sys2Proof/Laws/PerInstr.lean ====
section
/-! SUPPORT. Statements made of every instruction, one lemma per constructor. -/

namespace Sys2Proof.Laws.LegalEncoding

/-- The word an instruction is sent as is one of the 260 legal words (`30_encoding.md` rules R92, R96). -/
def Statement (i : Instr) : Prop := legalWord (encode i).word = true

theorem init : Statement .init := rfl

theorem resume (fstate : Port) (origbits : Len) : Statement (.resume fstate origbits) := by
  show legalWord 0x200 = true
  decide

theorem push (b : Byte) : Statement (.push b) := by
  show legalWord (0x300 ||| b.setWidth 12) = true
  revert b
  decide

theorem final : Statement .final := rfl

theorem srcerr : Statement .srcerr := rfl

end Sys2Proof.Laws.LegalEncoding
end

