-- ==== Sys2Proof/Laws/Primitives.lean ====
section
/-! SUPPORT. The shared part of the mixing functions and MAJ, bit by bit (`40_primitives.md` rule R123). -/

namespace Sys2Proof.Machine

@[simp] theorem xor3_getLsbD (a b c : Word) (i : Nat) :
    (xor3 a b c).getLsbD i = ((a.getLsbD i).xor (b.getLsbD i)).xor (c.getLsbD i) := by
  rw [xor3, BitVec.getLsbD_xor, BitVec.getLsbD_xor]

end Sys2Proof.Machine
end

