-- ==== Sys2Proof/Tests/Slice0.lean ====
section
/-! SUPPORT. The model's own tests. Expected values come from the examples and vectors of the spec, chiefly
`95_test_vectors.md`; the vector or rule is named at each. The witnesses at the end show, for each obligation that has
hypotheses, states and operands that meet them. -/

namespace Sys2Proof.Tests

open Sys2Proof.Machine Sys2Proof.Safety

/-! ### Small states -/

/-- BUF with `n` equal bytes from index 0 on. -/
def filled (n : Nat) (x : Byte) : Memory := (List.range n).map (fun a => (a, x))

/-- A stream with `p` bytes 0x61 in its block, the chaining state at the IV. -/
def streamState (p : Nat) (l : Len) : State :=
  { State.reset with h := ivRom, buf := filled p 0x61, ptr := BitVec.ofNat 6 p, len := l, padcnt := 0, phase := .absorb }

/-- The stream of vector S3 after its three bytes. -/
def abcState : State :=
  { streamState 3 24 with buf := [(0, 0x61), (1, 0x62), (2, 0x63)] }

/-- A finished computation, its digest the serialised IV. -/
def doneState : State :=
  { streamState 3 24 with padcnt := 1, phase := .done, digest := serializeState ivRom }

/-- A core in FAULT. -/
def faultState (c : Cause) : State := { State.reset with phase := .fault, cause := c }

/-- A stream whose PADCNT is not 0, which no run reaches. -/
def brokenState : State := { streamState 3 24 with padcnt := 1 }

/-- One transaction with both ports at 0. -/
def word (w : CmdWord) : Transaction := ⟨w, 0, 0⟩

/-- A state with these inputs pending. -/
def sent (s : State) (is : List HostInput) : State := { s with inputs := is }

/-- Does an outcome answer a next state with a property? -/
def nextHas (o : Host.Outcome State Fault Refusal) (p : State → Bool) : Bool :=
  match o with
  | .next t => p t
  | .fault _ | .refused _ => false

theorem nextHas_inv {o : Host.Outcome State Fault Refusal} {p : State → Bool} (h : nextHas o p = true) :
    ∃ t, o = .next t ∧ p t = true := by
  cases o with
  | next t => exact ⟨t, rfl, h⟩
  | fault r => cases h
  | refused r => cases h

theorem filled_read (l : List Nat) (x : Byte) (a : Nat) (h : a ∈ l) :
    Memory.read (l.map (fun a => (a, x))) a = some x := by
  induction l with
  | nil => cases h
  | cons b l ih =>
    simp only [List.map_cons, Memory.read]
    by_cases hb : b = a
    · rw [if_pos hb]
    · rw [if_neg hb]
      exact ih ((List.mem_cons.1 h).resolve_left (fun h => hb h.symm))

theorem filled_facts (n : Nat) (hn : n < 65) :
    (filled n 0x61).wf ∧ ∀ a, a < n → (filled n 0x61).read a = some 0x61 := by
  refine ⟨⟨List.pairwise_map.2 List.pairwise_lt_range, fun c hc => ?_⟩,
    fun a ha => filled_read _ _ _ (List.mem_range.2 ha)⟩
  obtain ⟨a, ha, rfl⟩ := List.mem_map.1 hc
  have := List.mem_range.1 ha
  show a < 64
  omega

theorem filled_holds (n : Nat) (hn : n < 65) : HoldsBytes (filled n 0x61) (List.replicate n 0x61) := by
  intro i b hi
  rw [List.getElem?_replicate] at hi
  split at hi
  · rename_i h
    rw [(filled_facts n hn).2 i h, ← Option.some.inj hi]
  · cases hi

theorem stream_inv (p : Nat) (hp : p < 64) (l : Len) : Inv (streamState p l) := by
  have hptr : (streamState p l).ptr.toNat = p := by
    show (BitVec.ofNat 6 p).toNat = p
    rw [BitVec.toNat_ofNat]; omega
  refine ⟨(filled_facts p (by omega)).1, by simp [streamState, State.reset], by simp [streamState, State.reset],
    fun _ => rfl, fun _ a ha => ?_, by simp [streamState], by simp [streamState]⟩
  rw [hptr] at ha
  show ((filled p 0x61).read a).isSome = true
  rw [(filled_facts p (by omega)).2 a ha]; rfl

theorem abc_inv : Inv abcState :=
  ⟨by decide, by decide, by decide, fun _ => rfl, fun _ a ha => (show ∀ a, a < 3 → (abcState.buf.read a).isSome = true by decide) a ha,
    (nomatch ·), (nomatch ·)⟩

theorem done_inv : Inv doneState :=
  ⟨(filled_facts 3 (by omega)).1, by decide, by decide, (nomatch ·), (nomatch ·), fun _ => by decide,
    fun _ => rfl⟩

theorem fault_inv (c : Cause) (h : c ≠ .none) (h' : c ≠ .paddingInvariantViolation) : Inv (faultState c) :=
  ⟨⟨List.Pairwise.nil, fun _ hc => nomatch hc⟩, by simp [faultState, h], h', (nomatch ·), (nomatch ·), (nomatch ·),
    (nomatch ·)⟩

theorem reset_inv : Inv State.reset :=
  ⟨by decide, by decide, by decide, (nomatch ·), (nomatch ·), (nomatch ·), (nomatch ·)⟩

/-- The invariant says nothing of the inputs. -/
theorem sent_inv {s : State} (h : Inv s) (is : List HostInput) : Inv (sent s is) :=
  ⟨h.bufWf, h.causeIff, h.noPaddingFault, h.padcntZero, h.written, h.padcntDone, h.digestDone⟩

/-! ### Well-formedness: each check refuses an ill-formed term -/

/-- Rule R96: opcode 0x0, opcode 0x6, and FINAL with a non-zero immediate. -/
theorem test_illWord : legalWord 0x000 = false ∧ legalWord 0x600 = false ∧ legalWord 0x401 = false ∧
    legalWord 0x400 = true := by decide

/-- Rule R36: a foreign state of 31 bytes. -/
theorem test_illFstate : fstateOk (List.replicate 31 0x00) = false ∧ fstateOk (List.replicate 32 0x00) = true := by
  decide

/-- Rule R37: an offset of 2^64. -/
theorem test_illOrigbits : origbitsOk (2 ^ 64) = false ∧ origbitsOk (2 ^ 64 - 1) = true := by decide

/-- Rule R99: a byte of 256. -/
theorem test_illByte : byteOk 256 = false ∧ byteOk 255 = true := by decide

/-- The checks reach the listing lines. -/
theorem test_illListing : (Listing.push 256).wellFormed = false ∧ (Listing.resume [] 0).wellFormed = false ∧
    (Listing.continuation [] (List.replicate 32 0x00) (2 ^ 64)).wellFormed = false ∧
    (Listing.continuation [] (List.replicate 32 0x00) 13).wellFormed = true := by decide

/-! ### Decode: words from the encoding of rule R92 and vector V7 -/

/-- Every legal word of V7, operands included. -/
theorem test_decodeLegal : decode (word 0b000100000000) = .ok .init ∧ decode (word 0b001000000000) = .ok (.resume 0 0) ∧
    decode (word 0b001100000000) = .ok (.push 0x00) ∧ decode (word 0b001111111111) = .ok (.push 0xff) ∧
    decode (word 0b010000000000) = .ok .final ∧ decode (word 0b010100000000) = .ok .srcerr := by decide

/-- RESUME takes what the ports show. -/
theorem test_decodeResume : decode ⟨0x200, 0x1234, 0x56⟩ = .ok (.resume 0x1234 0x56) := by decide

/-- Every illegal word of V7. -/
theorem test_decodeIllegal :
    ([0x000, 0x001, 0x101, 0x2ff, 0x401, 0x580, 0x600, 0x6ff, 0xf00, 0xfff] : List CmdWord).all
      (fun w => (decode (word w)).toOption == none) = true := by decide

/-- The table's numbering (16-bit container, rule R90: bits 15:12 are not on the port). -/
theorem test_tableWord : decodeTableWord 16 0x361 = some (.push 0x61) ∧ decodeTableWord 16 0x200 = some (.resume 0 0) ∧
    decodeTableWord 16 0x1361 = none ∧ decodeTableWord 16 0x401 = none := by decide

/-- The listing of program P1, its words as rule R99 and vector S2 give them. -/
theorem test_assemble : (assemble [.digest [0x61, 0x62, 0x63]]).map (List.map Transaction.word) =
    some [0x100, 0x361, 0x362, 0x363, 0x400] := by decide

/-! ### Primitives and converters -/

/-- V1, the row 12345678. -/
theorem test_mixing : rotr 0x12345678 7 = 0xf02468ac ∧ shr 0x12345678 3 = 0x02468acf ∧ ssig0 0x12345678 = 0xe7fce6ee ∧
    ssig1 0x12345678 = 0xa1f78649 ∧ bsig0 0x12345678 = 0x66146474 ∧ bsig1 0x12345678 = 0x3561abda := by decide

/-- V1, the row 6a09e667 and `add32`. -/
theorem test_mixingIv : ssig0 0x6a09e667 = 0xba0cf582 ∧ ssig1 0x6a09e667 = 0xcfe5da3c ∧ bsig0 0x6a09e667 = 0xce20b47e ∧
    bsig1 0x6a09e667 = 0x55b65510 ∧ add32 0x6a09e667 0x506e3058 = 0xba7816bf ∧ add32 0xffffffff 1 = 0 := by decide

/-- V1, `ch` and `maj`. -/
theorem test_chMaj : ch 0x510e527f 0x9b05688c 0x1f83d9ab = 0x1f85c98c ∧ maj 0x6a09e667 0xbb67ae85 0x3c6ef372 = 0x3a6fe667 ∧
    ch 0xf0f0f0f0 0xaaaaaaaa 0x55555555 = 0xa5a5a5a5 ∧ maj 0xf0f0f0f0 0xaaaaaaaa 0x55555555 = 0xf0f0f0f0 := by decide

/-- R25, R27: words of the two tables at the ends of their rows. -/
theorem test_roms : ivRom[0] = 0x6a09e667 ∧ ivRom[7] = 0x5be0cd19 ∧ kRom[0] = 0x428a2f98 ∧ kRom[7] = 0xab1c5ed5 ∧
    kRom[32] = 0x27b70a85 ∧ kRom[63] = 0xc67178f2 := by decide +kernel

/-- V2. -/
theorem test_converters : be32dec 0x61 0x62 0x63 0x80 = 0x61626380 ∧ be32enc 0xba7816bf = #v[0xba, 0x78, 0x16, 0xbf] ∧
    be64enc 0x1b8 = #v[0, 0, 0, 0, 0, 0, 0x01, 0xb8] ∧
    be64enc 8000000 = #v[0, 0, 0, 0, 0, 0x7a, 0x12, 0] := by decide

/-- V2, the port layout. -/
theorem test_port :
    portByte 0xba7816bf8f01cfea414140de5dae2223b00361a396177a9cb410ff61f20015ad 0 = 0xba ∧
    portByte 0xba7816bf8f01cfea414140de5dae2223b00361a396177a9cb410ff61f20015ad 31 = 0xad ∧
    portWord 0xba7816bf8f01cfea414140de5dae2223b00361a396177a9cb410ff61f20015ad 0 = 0xba7816bf := by decide

/-- S3, round 0 of "abc" (the row `0`: T1, T2 and a..h). -/
theorem test_roundZero :
    let s : State := { abcState with v := ivRom, w := Vector.replicate 64 0x61626380, t := 0 }
    roundT1 s = 0x54da50e8 ∧ roundT2 s = 0x08909ae5 ∧
    (eRound s).v = #v[0x5d6aebcd, 0x6a09e667, 0xbb67ae85, 0x3c6ef372, 0xfa2a4622, 0x510e527f, 0x9b05688c, 0x1f83d9ab] := by
  decide +kernel

/-- V3, n = 55 and n = 63. -/
theorem test_pad : pad 0 55 = [0x80, 0, 0, 0, 0, 0, 0, 0x01, 0xb8] ∧
    pad 0 63 = 0x80 :: (List.replicate 56 0 ++ [0, 0, 0, 0, 0, 0, 0x01, 0xf8]) := by decide

/-! ### One step of each command -/

/-- INIT in IDLE (R211, P1 after `0x100`). -/
theorem test_init : nextHas (step (sent State.reset [.command (word 0x100)]))
    (fun t => t.phase == .absorb && t.h == ivRom && t.ptr == 0 && t.len == 0 && t.padcnt == 0) = true := by decide +kernel

/-- INIT in ABSORB: STATUS 0x17 (V7). -/
theorem test_initInStream : nextHas (exec .init (streamState 0 0)) (fun t => statusPort t == 0x17) = true := by
  decide +kernel

/-- RESUME in DONE, the words of the foreign state (P4). -/
theorem test_resume :
    nextHas (exec (.resume 0xc7da5c8323f6bdce7fc8d522dc472ca2ddb51e5d8b5674848c54a0a8f281eda0 512) doneState)
      (fun t => statusPort t == 0x01 && t.len == 512 && t.ptr == 0 && t.padcnt == 0 &&
        t.h == #v[0xc7da5c83, 0x23f6bdce, 0x7fc8d522, 0xdc472ca2, 0xddb51e5d, 0x8b567484, 0x8c54a0a8, 0xf281eda0]) =
      true := by decide +kernel

/-- The 64th PUSH of 64 x 0x61 compresses the block (V4, P3). -/
theorem test_pushFull : nextHas (exec (.push 0x61) (streamState 63 504))
    (fun t => t.ptr == 0 && t.len == 512 && t.phase == .absorb && t.buf == filled 64 0x61 &&
      t.h == #v[0xdf5bb81c, 0xe81e0626, 0xfb45a894, 0x4fd40f31, 0xb25e6816, 0xd6d499c1, 0xab904929, 0x00635e66]) =
    true := by decide +kernel

/-- PUSH with LEN 2^64 - 8: STATUS 0x0f, LEN and PTR unchanged (V7). -/
theorem test_pushOverflow : nextHas (exec (.push 0x00) (streamState 1 0xfffffffffffffff8))
    (fun t => statusPort t == 0x0f && t.len == 0xfffffffffffffff8 && t.ptr == 1) = true := by decide +kernel

/-- FINAL of "abc" (S2, P1): one block. -/
theorem test_finalOneBlock : nextHas (step (sent abcState [.command (word 0x400)]))
    (fun t => t.phase == .done && t.digest != abcState.digest && statusPort t == 0x02 && t.ptr == 3 && t.len == 24 && t.padcnt == 1 &&
      digestPort t == some 0xba7816bf8f01cfea414140de5dae2223b00361a396177a9cb410ff61f20015ad) = true := by decide +kernel

/-- FINAL of 56 x 0x61 (P2): two blocks, and what BUF holds afterwards. -/
theorem test_finalTwoBlocks : nextHas (exec .final (streamState 56 448))
    (fun t => t.phase == .done && statusPort t == 0x02 && t.ptr == 56 && t.len == 448 && t.padcnt == 2 &&
      (t.buf.map Prod.snd) == List.replicate 62 0x00 ++ [0x01, 0xc0] &&
      digestPort t == some 0xb35439a4ac6f0948b6d6f9e3c6af0f5f590ce20f1bde7090ef7970686ec6738a) = true := by
  decide +kernel

/-- SRCERR in a stream (V7, P5). -/
theorem test_srcerr : nextHas (exec .srcerr (streamState 1 8))
    (fun t => statusPort t == 0x07 && t.ptr == 1 && t.len == 8 && digestPort t == none) = true := by decide +kernel

/-- SRCERR in IDLE: STATUS 0x17 (V7). -/
theorem test_srcerrInIdle : nextHas (exec .srcerr State.reset) (fun t => statusPort t == 0x17) = true := by decide +kernel

/-- An illegal word in a stream: STATUS 0x13 (V7). -/
theorem test_illegalWord : nextHas (step (sent (streamState 0 0) [.command (word 0x6ff)]))
    (fun t => statusPort t == 0x13) = true := by decide +kernel

/-- The reset event leaves FAULT (P5). -/
theorem test_resetEvent : nextHas (step (sent (faultState .sourceReadError) [.reset]))
    (fun t => statusPort t == 0x00 && digestPort t == none && t.inputs == []) = true := by rfl

/-! ### Witnesses: the hypotheses of each obligation can be met -/

/-- IllegalWordsRejected, IllegalCommandEntry: an illegal word pending in each phase, and a word for each clause on the
opcode. -/
theorem witness_IllegalCommandEntry :
    (sent (streamState 0 0) [.command (word 0x6ff)]).inputs = .command (word 0x6ff) :: [] ∧
    (∃ why, decode (word 0x6ff) = .error why) ∧ (sent State.reset [.command (word 0x6ff)]).phase = .idle ∧
    (sent (streamState 0 0) [.command (word 0x6ff)]).phase = .absorb ∧
    (sent doneState [.command (word 0x6ff)]).phase = .done ∧
    (sent (faultState .lengthOverflow) [.command (word 0x6ff)]).phase = .fault ∧
    (word 0x0ff).word.extractLsb' 8 4 = 0x0 ∧ 0x6 ≤ (word 0x600).word.extractLsb' 8 4 ∧
    0x6 ≤ (word 0xfff).word.extractLsb' 8 4 ∧ (word 0x401).word.extractLsb' 8 4 = 0x4 ∧
    (word 0x401).word.extractLsb' 0 8 ≠ 0 :=
  ⟨rfl, ⟨.immediateNotZero 0x6 0xff, by decide⟩, rfl, rfl, rfl, rfl, by decide, by decide, by decide, by decide,
    by decide⟩

/-- IllegalWordsRejected: a boundary word of each clause, the legal words beside them left out. -/
theorem witness_IllegalWordsRejected :
    (∀ w ∈ ([0x000, 0x0ff, 0x600, 0xfff, 0x101, 0x1ff, 0x201, 0x4ff, 0x501] : List CmdWord),
      ∃ why, decode (word w) = .error why) ∧
    ∀ w ∈ ([0x100, 0x200, 0x300, 0x3ff, 0x400, 0x500] : List CmdWord), ∃ i, decode (word w) = .ok i := by
  have h0 : ([0x000, 0x0ff, 0x600, 0xfff, 0x101, 0x1ff, 0x201, 0x4ff, 0x501] : List CmdWord).all
    (fun w => (decode (word w)).toOption == none) = true := by decide
  have h1 : ([0x100, 0x200, 0x300, 0x3ff, 0x400, 0x500] : List CmdWord).all
    (fun w => (decode (word w)).toOption != none) = true := by decide
  constructor
  · intro w hw
    have h := List.all_eq_true.1 h0 w hw
    cases hd : decode (word w) with
    | ok i => rw [hd] at h; cases h
    | error e => exact ⟨e, rfl⟩
  · intro w hw
    have h := List.all_eq_true.1 h1 w hw
    cases hd : decode (word w) with
    | ok i => exact ⟨i, rfl⟩
    | error e => rw [hd] at h; cases h

/-- EncodeDecodeRoundTrip: a word that decodes, RESUME's among them, and two equal encodings. -/
theorem witness_EncodeDecodeRoundTrip :
    decode ⟨0x3ff, 7, 9⟩ = .ok (.push 0xff) ∧ decode ⟨0x200, 7, 9⟩ = .ok (.resume 7 9) ∧
    opField (0x200 : CmdWord) = 0x2 ∧ encode (.push 0xff) = encode (.push 0xff) := by decide

/-- StepRunsDecodedCommand. -/
theorem witness_StepRunsDecodedCommand :
    (sent State.reset [.command (word 0x100)]).inputs = .command (word 0x100) :: [] ∧
    decode (word 0x100) = .ok .init := by decide

/-- OfferedTableWordRuns: the first and the last word of PUSH. -/
theorem witness_OfferedTableWordRuns :
    decodeTableWord 16 0x300 = some (.push 0x00) ∧ decodeTableWord 16 0x3ff = some (.push 0xff) := by decide

/-- ResetEventLeavesIdle, and the reset clauses of FaultPriority, PhaseTransitionTable, DigestWrittenOnlyByFinal and
CauseLatched. -/
theorem witness_ResetEventLeavesIdle :
    (sent (faultState .protocolError) [.reset]).inputs = .reset :: [] ∧
    Inv (sent (faultState .protocolError) [.reset]) :=
  ⟨rfl, sent_inv (fault_inv _ (by decide) (by decide)) _⟩

/-- NoInputNoChange. -/
theorem witness_NoInputNoChange : State.reset.inputs = [] := rfl

/-- FaultPhaseIsSticky: a command ignored in FAULT, and the step that leaves it. -/
theorem witness_FaultPhaseIsSticky :
    (faultState .lengthOverflow).phase = .fault ∧
    (sent (faultState .lengthOverflow) [.command (word 0x100)]).inputs = .command (word 0x100) :: [] ∧
    (sent (faultState .lengthOverflow) [.reset]).inputs = .reset :: [] ∧
    ∃ t, step (sent (faultState .lengthOverflow) [.reset]) = .next t ∧ t.phase ≠ .fault :=
  ⟨rfl, rfl, rfl, _, step_reset rfl, by decide⟩

/-- FaultPriority: one state for each clause, and each fault a command of its own phase can end in. -/
theorem witness_FaultPriority :
    (sent (faultState .lengthOverflow) [.command (word 0x100)]).phase = .fault ∧
    (State.reset.phase ≠ .fault ∧ ∃ why, decode (word 0x401) = .error why) ∧
    ((streamState 0 0).phase = .absorb ∧ decode (word 0x100) = .ok .init) ∧
    (State.reset.phase ≠ .absorb ∧ decode (word 0x361) = .ok (.push 0x61)) ∧
    nextHas (step (sent (streamState 1 0xfffffffffffffff8) [.command (word 0x300)]))
      (fun t => t.phase == .fault && t.cause == .lengthOverflow) = true ∧
    nextHas (step (sent (streamState 1 8) [.command (word 0x500)]))
      (fun t => t.phase == .fault && t.cause == .sourceReadError) = true ∧
    nextHas (step (sent (streamState 1 8) [.command (word 0x200)]))
      (fun t => t.phase == .fault && t.cause == .protocolError) = true ∧
    nextHas (step (sent brokenState [.command (word 0x400)]))
      (fun t => t.phase == .fault && t.cause == .paddingInvariantViolation) = true :=
  ⟨rfl, ⟨by decide, .immediateNotZero 0x4 0x01, by decide⟩, ⟨rfl, by decide⟩, ⟨by decide, by decide⟩,
    by decide +kernel, by decide +kernel, by decide +kernel, by decide +kernel⟩

/-- PhaseTransitionTable, StepKeepsInvariant, StepAlwaysCompletes, StatusWordValues: the invariant is met in every
phase, with every cause but the padding fault's, and in streams at the bounds of PTR and LEN. -/
theorem witness_Inv :
    Inv State.reset ∧ Inv (streamState 0 0) ∧ Inv (streamState 55 440) ∧ Inv (streamState 56 448) ∧
    Inv (streamState 63 0xffffffffffffffff) ∧ Inv doneState ∧ Inv (faultState .sourceReadError) ∧
    Inv (faultState .lengthOverflow) ∧ Inv (faultState .illegalCommand) ∧ Inv (faultState .protocolError) :=
  ⟨reset_inv, stream_inv 0 (by omega) _, stream_inv 55 (by omega) _, stream_inv 56 (by omega) _,
    stream_inv 63 (by omega) _, done_inv, fault_inv _ (by decide) (by decide), fault_inv _ (by decide) (by decide),
    fault_inv _ (by decide) (by decide), fault_inv _ (by decide) (by decide)⟩

/-- StepKeepsInvariant: a step from such a state. -/
theorem witness_StepKeepsInvariant :
    Inv (sent State.reset [.command (word 0x100)]) ∧
    ∃ t, step (sent State.reset [.command (word 0x100)]) = .next t :=
  ⟨sent_inv reset_inv _, (nextHas_inv test_init).imp fun _ h => h.1⟩

/-- InitCommand, ResumeCommand, SrcerrCommand, ProtocolErrorEntry: every phase clause, and an immediate that is not 0. -/
theorem witness_CommandPhases :
    MayStart State.reset ∧ MayStart doneState ∧ (streamState 0 0).phase = .absorb ∧
    (faultState .protocolError).phase = .fault ∧
    (sent State.reset [.command (word 0x101)]).inputs = .command (word 0x101) :: [] ∧
    (sent State.reset [.command (word 0x101)]).phase ≠ .fault ∧
    ((word 0x101).word.extractLsb' 8 4 = 0x1 ∧ (word 0x101).word.extractLsb' 0 8 ≠ 0) ∧
    ((word 0x2ff).word.extractLsb' 8 4 = 0x2 ∧ (word 0x2ff).word.extractLsb' 0 8 ≠ 0) ∧
    ((word 0x580).word.extractLsb' 8 4 = 0x5 ∧ (word 0x580).word.extractLsb' 0 8 ≠ 0) :=
  ⟨.inl rfl, .inr rfl, rfl, rfl, rfl, by decide, by decide, by decide, by decide⟩

/-- ResumeCommand: the least and the greatest offset of the overflow clause. -/
theorem witness_ResumeCommand :
    2 ^ 64 - 8 ≤ (0xfffffffffffffff8 : Len).toNat ∧ 2 ^ 64 - 8 ≤ (0xffffffffffffffff : Len).toNat ∧
    MayStart State.reset := ⟨by decide, by decide, .inl rfl⟩

/-- PushCommand: overflow at LEN = 2^64 - 8, none at 2^64 - 9; inside the block at PTR = 62; the last byte at
PTR = 63. -/
theorem witness_PushCommand :
    ((streamState 1 0xfffffffffffffff8).phase = .absorb ∧ (streamState 1 0xfffffffffffffff8).len.toNat + 8 ≥ 2 ^ 64) ∧
    ((streamState 62 0xfffffffffffffff7).len.toNat + 8 < 2 ^ 64 ∧ (streamState 62 0xfffffffffffffff7).ptr ≠ 63) ∧
    ((streamState 63 504).len.toNat + 8 < 2 ^ 64 ∧ (streamState 63 504).ptr = 63 ∧
      (List.replicate 63 (0x61 : Byte)).length = 63 ∧ HoldsBytes (streamState 63 504).buf (List.replicate 63 0x61)) ∧
    MayStart State.reset ∧ (faultState .protocolError).phase = .fault :=
  ⟨⟨rfl, by decide⟩, ⟨by decide, by decide⟩, ⟨by decide, by decide, by simp, filled_holds 63 (by omega)⟩, .inl rfl, rfl⟩

/-- PushFrame: a PUSH that stays in ABSORB with PTR not 63, and one that faults. -/
theorem witness_PushFrame :
    nextHas (exec (.push 0x61) (streamState 0 0)) (fun t => t.phase == .absorb) = true ∧
    (streamState 0 0).ptr ≠ 63 ∧
    nextHas (exec (.push 0x61) (streamState 1 0xfffffffffffffff8)) (fun t => t.phase == .fault) = true := by
  decide +kernel

/-- LengthOverflowRaised: both clauses, at the two neighbouring values of LEN. -/
theorem witness_LengthOverflowRaised :
    Inv (streamState 1 0xfffffffffffffff8) ∧ (streamState 1 0xfffffffffffffff8).phase = .absorb ∧
    (streamState 1 0xfffffffffffffff8).len.toNat + 8 ≥ 2 ^ 64 ∧ Inv (streamState 63 0xfffffffffffffff7) ∧
    (streamState 63 0xfffffffffffffff7).len.toNat + 8 < 2 ^ 64 :=
  ⟨stream_inv 1 (by omega) _, rfl, by decide, stream_inv 63 (by omega) _, by decide⟩

/-- FinalOneBlock: an empty block and a block of 55 bytes. -/
theorem witness_FinalOneBlock :
    ((streamState 0 0).phase = .absorb ∧ (streamState 0 0).padcnt = 0 ∧
      (streamState 0 0).ptr.toNat = ([] : List Byte).length ∧ ([] : List Byte).length ≤ 55 ∧
      HoldsBytes (streamState 0 0).buf []) ∧
    ((streamState 55 440).phase = .absorb ∧ (streamState 55 440).padcnt = 0 ∧
      (streamState 55 440).ptr.toNat = (List.replicate 55 (0x61 : Byte)).length ∧
      (List.replicate 55 (0x61 : Byte)).length ≤ 55 ∧
      HoldsBytes (streamState 55 440).buf (List.replicate 55 0x61)) :=
  ⟨⟨rfl, rfl, rfl, by simp, filled_holds 0 (by omega)⟩, ⟨rfl, rfl, by decide, by simp, filled_holds 55 (by omega)⟩⟩

/-- FinalTwoBlocks: a block of 56 bytes and a block of 63. -/
theorem witness_FinalTwoBlocks :
    ((streamState 56 448).phase = .absorb ∧ (streamState 56 448).padcnt = 0 ∧
      (streamState 56 448).ptr.toNat = (List.replicate 56 (0x61 : Byte)).length ∧
      56 ≤ (List.replicate 56 (0x61 : Byte)).length ∧
      HoldsBytes (streamState 56 448).buf (List.replicate 56 0x61)) ∧
    ((streamState 63 504).phase = .absorb ∧ (streamState 63 504).padcnt = 0 ∧
      (streamState 63 504).ptr.toNat = (List.replicate 63 (0x61 : Byte)).length ∧
      56 ≤ (List.replicate 63 (0x61 : Byte)).length ∧
      HoldsBytes (streamState 63 504).buf (List.replicate 63 0x61)) :=
  ⟨⟨rfl, rfl, by decide, by simp, filled_holds 56 (by omega)⟩, ⟨rfl, rfl, by decide, by simp, filled_holds 63 (by omega)⟩⟩

/-- FinalFrame: FINAL completes with 3 bytes in the block, whose addresses the first clause covers, and with 56. -/
theorem witness_FinalFrame :
    (∃ t, exec .final abcState = .next t ∧ t.phase = .done) ∧
    (∃ t, exec .final (streamState 56 448) = .next t ∧ t.phase = .done) ∧
    2 < abcState.ptr.toNat ∧ abcState.ptr.toNat ≤ 55 := by
  obtain ⟨t, ht, hp⟩ := nextHas_inv test_finalOneBlock
  obtain ⟨u, hu, hq⟩ := nextHas_inv test_finalTwoBlocks
  simp only [Bool.and_eq_true, beq_iff_eq] at hp hq
  exact ⟨⟨t, ht, hp.1.1.1.1.1.1⟩, ⟨u, hu, hq.1.1.1.1.1.1⟩, by decide, by decide⟩

/-- FinalPaddingFault: PADCNT 1 with 3 bytes in the block. -/
theorem witness_FinalPaddingFault :
    brokenState.phase = .absorb ∧ brokenState.padcnt ≠ 0 ∧ WrittenBelow brokenState.buf brokenState.ptr.toNat :=
  ⟨rfl, by decide, (stream_inv 3 (by omega) 24).written rfl⟩

/-- RaiseWritesPhaseAndCause: a cause that is not the padding fault's. -/
theorem witness_RaiseWritesPhaseAndCause : Cause.lengthOverflow ≠ .paddingInvariantViolation := by decide

/-- FaultsArePrecise: a step into FAULT. -/
theorem witness_FaultsArePrecise :
    ∃ s t : State, s.phase ≠ .fault ∧ step s = .next t ∧ t.phase = .fault ∧ t.cause ≠ .paddingInvariantViolation := by
  have h : nextHas (step (sent (streamState 0 0) [.command (word 0x6ff)]))
    (fun t => t.phase == .fault && t.cause != .paddingInvariantViolation) = true := by decide +kernel
  obtain ⟨t, ht, hp⟩ := nextHas_inv h
  rw [Bool.and_eq_true] at hp
  exact ⟨_, t, by decide, ht, by simpa using hp.1, by simpa using hp.2⟩

/-- RotrMovesBits, MixingFunctionBits, ChooseAndMajorityBits: V1 at the highest and the lowest bit, with the least and
the greatest amount. -/
theorem witness_bits : (rotr 0x80000000 31).getLsbD 0 = true ∧ (rotr 0x00000001 1).getLsbD 31 = true ∧
    (ssig1 0x80000000).getLsbD 14 = true ∧ (shr 0x80000000 3).getLsbD 31 = false ∧
    (maj 0x80000000 0x80000000 0).getLsbD 31 = true ∧ (ch 0 0 1).getLsbD 0 = true := by decide

/-- BufferMixedWidths: the last byte; the length field of V3 read back by words; a written word at 60. -/
theorem witness_BufferMixedWidths :
    (63 < 64 ∧ (filled 64 0x61).read 60 = some 0x61 ∧ (filled 64 0x61).read 63 = some 0x61) ∧
    (match memWrite8 [] 56 0x00000000000001b8 with
      | .ok m => memRead4 m 60
      | .error e => .error e) = .ok 0x000001b8 := by decide +kernel

/-- ZeroFillRange: a fill to the end of BUF and an empty one. -/
theorem witness_ZeroFillRange : zeroFill [] 62 63 = .ok [(62, 0), (63, 0)] ∧ zeroFill [] 56 55 = .ok [] := by
  decide +kernel

/-- ScheduleRecurrence and CompressIgnoresScratch: a whole block, and a second state that differs in the scratch. -/
theorem witness_ScheduleRecurrence :
    ∃ s : State, (List.replicate 64 (0x61 : Byte)).length = 64 ∧ HoldsBytes s.buf (List.replicate 64 0x61) ∧
      WrittenBelow s.buf 64 ∧ ∃ t : State, s.h = t.h ∧ (∀ a, a < 64 → s.buf.read a = t.buf.read a) ∧ s.v ≠ t.v := by
  refine ⟨{ streamState 0 0 with buf := filled 64 0x61 }, by simp, filled_holds 64 (by omega), fun a ha => ?_,
    { streamState 0 0 with buf := filled 64 0x61, v := ivRom }, rfl, fun _ _ => rfl, by decide +kernel⟩
  show ((filled 64 0x61).read a).isSome = true
  rw [(filled_facts 64 (by omega)).2 a ha]; rfl

/-- RoundUpdate: the seed of S3. -/
theorem witness_RoundUpdate : ({ abcState with v := ivRom } : State).v =
    #v[ivRom[0], ivRom[1], ivRom[2], ivRom[3], ivRom[4], ivRom[5], ivRom[6], ivRom[7]] := by
  decide +kernel

/-- DigestPortOnlyInDone: a state with a digest, a state without. -/
theorem witness_DigestPortOnlyInDone :
    digestPort doneState = some (portOfBytes (serializeState ivRom)) ∧ digestPort State.reset = none := ⟨rfl, rfl⟩

/-- DigestWrittenOnlyByFinal: FINAL writes DIGEST in a state that meets the invariant. -/
theorem witness_DigestWrittenOnlyByFinal :
    ∃ s t : State, Inv s ∧ step s = .next t ∧ t.digest ≠ s.digest := by
  obtain ⟨t, ht, hp⟩ := nextHas_inv test_finalOneBlock
  simp only [Bool.and_eq_true, bne_iff_ne] at hp
  exact ⟨_, t, sent_inv abc_inv _, ht, hp.1.1.1.1.1.2⟩

/-- OnlyResumeReadsPorts: one word with two values on the ports. -/
theorem witness_OnlyResumeReadsPorts :
    (⟨0x100, 1, 2⟩ : Transaction).word = (⟨0x100, 3, 4⟩ : Transaction).word ∧
    (⟨0x100, 1, 2⟩ : Transaction).word ≠ 0x200 := by decide

/-- PushesCountBytes: one byte at the greatest LEN that still takes it, with PTR at the end of a block. -/
theorem witness_PushesCountBytes :
    Inv (streamState 63 0xfffffffffffffff7) ∧ (streamState 63 0xfffffffffffffff7).phase = .absorb ∧
    (streamState 63 0xfffffffffffffff7).len.toNat + 8 * [(0x61 : Byte)].length < 2 ^ 64 :=
  ⟨stream_inv 63 (by omega) _, rfl, by decide⟩

/-- CauseLatched: a step that sets CAUSE. -/
theorem witness_CauseLatched : ∃ s t : State, Inv s ∧ step s = .next t ∧ t.cause ≠ s.cause := by
  have h : nextHas (step (sent (streamState 1 8) [.command (word 0x500)])) (fun t => t.cause != (sent (streamState 1 8) [.command (word 0x500)]).cause) = true := by
    decide +kernel
  obtain ⟨t, ht, hp⟩ := nextHas_inv h
  exact ⟨_, t, sent_inv (stream_inv 1 (by omega) 8) _, ht, by simpa using hp⟩

/-- HiddenStateNeverObserved: in a stream, two states that differ in V and in a stale byte; in IDLE, two that differ in
H, PTR and LEN. -/
theorem witness_HiddenStateNeverObserved :
    (∃ s t : State, Inv s ∧ Inv t ∧ Alike s t ∧ s.phase = .absorb ∧ s.v ≠ t.v ∧ s.buf ≠ t.buf) ∧
    (∃ s t : State, Inv s ∧ Inv t ∧ Alike s t ∧ s.phase = .idle ∧ s.h ≠ t.h ∧ s.ptr ≠ t.ptr ∧ s.len ≠ t.len) := by
  constructor
  · refine ⟨streamState 0 0, { streamState 0 0 with v := ivRom, buf := filled 1 0x61 }, stream_inv 0 (by omega) _,
      ⟨(filled_facts 1 (by omega)).1, by decide, by decide, fun _ => rfl, fun _ a ha => absurd ha (Nat.not_lt_zero a),
        (nomatch ·), (nomatch ·)⟩,
      ⟨rfl, rfl, rfl, fun _ => rfl, fun _ => rfl, fun _ => rfl, fun _ => rfl,
        fun _ a ha => absurd ha (Nat.not_lt_zero a), (nomatch ·)⟩, rfl, by decide +kernel, by decide +kernel⟩
  · exact ⟨State.reset, { State.reset with h := ivRom, ptr := 0, len := 0 }, reset_inv,
      ⟨by decide, by decide, by decide, (nomatch ·), (nomatch ·), (nomatch ·), (nomatch ·)⟩,
      ⟨rfl, rfl, rfl, (nomatch ·), (nomatch ·), (nomatch ·), (nomatch ·),
        (nomatch ·), (nomatch ·)⟩, rfl, by decide +kernel, by decide +kernel, by decide +kernel⟩

/-- DigestSequenceComputesDigest, ContinueSequenceComputesContinuation, SourceFailureGivesNoDigest, ResetThenDigest: the
message "abc" from reset; for the continuation the greatest offset that leaves room for one byte. -/
theorem witness_sequences :
    MayStart State.reset ∧ State.reset.cause = .none ∧ 8 * [(0x61 : Byte), 0x62, 0x63].length < 2 ^ 64 ∧
    (0xfffffffffffffff7 : Len).toNat + 8 * [(0x61 : Byte)].length < 2 ^ 64 ∧ MayStart doneState ∧
    doneState.cause = .none :=
  ⟨.inl rfl, rfl, by decide, by decide, .inr rfl, rfl⟩

/-- ContinuationProperty, LengthExtensionAtCommands: vector V5, a message at the boundary and a suffix of 3 bytes. -/
theorem witness_ContinuationProperty :
    paddedBits (List.replicate 56 (0x61 : Byte)).length = 1024 ∧
    paddedBits (List.replicate 56 (0x61 : Byte)).length + 8 * [(0x63 : Byte), 0x63, 0x63].length < 2 ^ 64 := by
  decide +kernel

/-- ListingExpansion: each ill-formed case of the last clause. -/
theorem witness_ListingExpansion :
    ([] : List Byte).length ≠ 32 ∧ 2 ^ 64 ≤ (2 ^ 64 : Nat) ∧
    (Listing.continuation [] (List.replicate 32 0x00) (2 ^ 64)).expand = none := by decide

end Sys2Proof.Tests
end

section
/-! BUF in mixed widths and the range fill (`00_scope.md` rules R9, R10; `20_memory.md` rules R61, R63). -/

namespace Sys2Proof.Machine

/-- Four neighbouring bytes of the length field, most significant first, decode to the 32 bits they cover. -/
theorem be32dec_extractLsb' (v : Len) (i : Nat) :
    be32dec (v.extractLsb' (i + 24) 8) (v.extractLsb' (i + 16) 8) (v.extractLsb' (i + 8) 8) (v.extractLsb' i 8) =
      v.extractLsb' i 32 := by
  rw [be32dec, BitVec.extractLsb'_append_extractLsb'_eq_extractLsb' (by omega),
    BitVec.extractLsb'_append_extractLsb'_eq_extractLsb' (by omega),
    BitVec.extractLsb'_append_extractLsb'_eq_extractLsb' (by omega)]

/-- Byte `j` of BE64_ENCODE (rule R132). -/
theorem be64enc_getElem? (v : Len) {j : Nat} (hj : j < 8) :
    (be64enc v).toList[j]? = some (v.extractLsb' (56 - 8 * j) 8) := by
  interval_cases j <;> rfl

/-- The length field is seen byte by byte at 56 to 63. -/
theorem Memory.read_lenField (m : Memory) (v : Len) {j : Nat} (hj : j < 8) :
    (m.writeBytes 56 (be64enc v).toList).read (56 + j) = some (v.extractLsb' (56 - 8 * j) 8) := by
  rw [Memory.read_writeBytes, if_pos (by rw [be64enc_length]; omega), Nat.add_sub_cancel_left, be64enc_getElem? v hj]

/-- Nothing outside 56 to 63 sees the length field written. -/
theorem Memory.read_lenField_frame (m : Memory) (v : Len) {k : Nat} (hk : k < 56 ∨ 64 ≤ k) :
    (m.writeBytes 56 (be64enc v).toList).read k = m.read k := by
  rw [Memory.read_writeBytes, if_neg (by rw [be64enc_length]; omega)]

/-- The upper half of the length field is the word at 56, the lower half the word at 60 (rule R61). -/
theorem memRead4_lenField (m : Memory) (v : Len) {i : Nat} (hi : i ≤ 4) (h4 : i % 4 = 0) :
    memRead4 (m.writeBytes 56 (be64enc v).toList) (56 + i) = .ok (v.extractLsb' (32 - 8 * i) 32) := by
  have hbyte (j : Nat) (hj : j < 4) : (m.writeBytes 56 (be64enc v).toList).read (56 + i + j) =
      some (v.extractLsb' (32 - 8 * i + (24 - 8 * j)) 8) := by
    rw [Nat.add_assoc, Memory.read_lenField m v (by omega),
      show 56 - 8 * (i + j) = 32 - 8 * i + (24 - 8 * j) by omega]
  rw [← be32dec_extractLsb' v (32 - 8 * i)]
  exact memRead4_ok (by omega) (by omega) (hbyte 0 (by omega)) (hbyte 1 (by omega)) (hbyte 2 (by omega))
    (hbyte 3 (by omega))

/-- An empty range has no zeros to write (rule R9). -/
theorem Memory.writeBytes_zeros_of_hi_lt (m : Memory) {lo hi : Nat} (h : hi < lo) :
    m.writeBytes lo (List.replicate (rangeCount lo hi) 0x00) = m := by
  have hcount : rangeCount lo hi = 0 := Nat.sub_eq_zero_of_le h
  rw [hcount, List.replicate_zero, Memory.writeBytes_nil]

/-- A range fill that ends inside BUF answers, wherever it begins: with `hi < lo` it writes nothing (rule R9). -/
theorem zeroFill_ok_of_hi_lt_64 (m : Memory) (lo hi : Nat) (h : hi < 64) :
    zeroFill m lo hi = .ok (m.writeBytes lo (List.replicate (rangeCount lo hi) 0x00)) := by
  by_cases hempty : hi < lo
  · have hcount : rangeCount lo hi = 0 := Nat.sub_eq_zero_of_le hempty
    rw [Memory.writeBytes_zeros_of_hi_lt m hempty, zeroFill, hcount]
    rfl
  · exact zeroFill_ok m lo hi (by rw [rangeCount]; omega)

/-- What a read returns after `BUF[lo .. hi] <- 0x00`. -/
theorem Memory.read_writeBytes_zeros (m : Memory) (lo hi k : Nat) :
    (m.writeBytes lo (List.replicate (rangeCount lo hi) 0x00)).read k =
      if lo ≤ k ∧ k ≤ hi then some 0x00 else m.read k := by
  have hrange : (lo ≤ k ∧ k < lo + (hi + 1 - lo)) ↔ (lo ≤ k ∧ k ≤ hi) := by omega
  rw [Memory.read_writeBytes, List.length_replicate, rangeCount, if_congr hrange rfl rfl]
  split
  case isTrue h => rw [List.getElem?_replicate, if_pos (by omega)]
  case isFalse => rfl

/-- Settles O33: the byte write, the length field and the word read, each by its rule about BUF. -/
theorem bufferMixedWidths : Obligations.BufferMixedWidths := by
  unfold Obligations.BufferMixedWidths
  refine ⟨fun m a b ha => ?byteWrite, fun m v => ?lenField, fun m j b0 b1 b2 b3 hj h0 h1 h2 h3 => ?wordRead⟩
  case byteWrite => exact ⟨_, memWrite1_ok ha m b, fun k => Memory.read_write m a k b⟩
  case lenField =>
    exact ⟨_, memWrite8_ok m v, memRead4_lenField m v (i := 0) (by omega) rfl,
      memRead4_lenField m v (i := 4) le_rfl rfl, fun _ hk => Memory.read_lenField_frame m v hk⟩
  case wordRead => exact ⟨_, memRead4_ok (by omega) (by omega) h0 h1 h2 h3, be32dec_toNat b0 b1 b2 b3⟩

/-- Settles O34: the fill writes `rangeCount lo hi` zeros from `lo` on, none when `hi < lo`. -/
theorem zeroFillRange : Obligations.ZeroFillRange := by
  unfold Obligations.ZeroFillRange
  intro m lo hi hhi
  refine ⟨_, zeroFill_ok_of_hi_lt_64 m lo hi hhi, fun hempty => ?empty, fun k => ?read⟩
  case empty => exact Memory.writeBytes_zeros_of_hi_lt m hempty
  case read => exact Memory.read_writeBytes_zeros m lo hi k

end Sys2Proof.Machine
end

section
/-! What a command leaves behind, said once for every command: in FAULT nothing happens (rule R252), a command not
admitted in the phase raises ProtocolError (rule R246), an admitted one is performed (rules R211 to R215). -/

namespace Sys2Proof.Machine

open Sys2Proof.Safety

/-! ### The states commands lead to -/

/-- The stream INIT and RESUME begin, with its chaining state and its offset (rules R150, R211, R212). -/
def beginStream (h : Vector Word 8) (o : Len) (s : State) : State :=
  { s with h := h, ptr := 0, len := o, padcnt := 0, phase := .absorb }

/-- H after a byte has been taken into a block that held `bs` (rule R151). -/
def absorbH (h : Vector Word 8) (bs : List Byte) (b : Byte) : Vector Word 8 :=
  if bs.length = 63 then compress h (bs ++ [b]) else h

/-- The stream after PUSH took a byte into a block that held `bs`, with some scratch in W, V and T. PTR is 6 bits wide,
so that it returns to 0 after the byte that completes the block. -/
def pushed (bs : List Byte) (b : Byte) (w : Vector Word 64) (v : Vector Word 8) (x : BitVec 6) (s : State) : State :=
  { s with h := absorbH s.h bs b, w := w, v := v, t := x, buf := s.buf.write s.ptr.toNat b, len := s.len + 8,
           ptr := s.ptr + 1 }

/-- H after the padding of a block that held `bs` (rules R155, R156). -/
def paddedH (h : Vector Word 8) (bs : List Byte) (l : Len) : Vector Word 8 :=
  if bs.length ≤ 55 then compress h (blockOne bs l) else compress (compress h (blockFirst bs)) (blockSecond l)

/-- BUF after the padding of a block that held `p` bytes. -/
def paddedBuf (m : Memory) (p : Nat) (l : Len) : Memory :=
  if p ≤ 55 then padBufOne m p l else padBufSecond m p l

/-- The state FINAL leaves when the block held `bs`, with some scratch in W, V and T (rule R214). -/
def finished (bs : List Byte) (w : Vector Word 64) (v : Vector Word 8) (x : BitVec 6) (s : State) : State :=
  { s with h := paddedH s.h bs s.len, w := w, v := v, t := x, buf := paddedBuf s.buf bs.length s.len,
           padcnt := if bs.length ≤ 55 then 1 else 2, phase := .done,
           digest := serializeState (paddedH s.h bs s.len) }

/-- PTR grows by at most 1, returning to 0 from 63. -/
theorem ptr_succ_le (p : BitVec 6) : (p + 1).toNat ≤ p.toNat + 1 := by
  rw [BitVec.toNat_add]
  exact Nat.mod_le _ _

/-- The padding keeps the canonical form of BUF. -/
theorem paddedBuf_wf {m : Memory} (hm : m.wf) {p : Nat} (hp : p < 64) (l : Len) : (paddedBuf m p l).wf := by
  have marked := Memory.write_wf hm hp 0x80
  have lenField {m : Memory} (hm : m.wf) : (m.writeBytes 56 (be64enc l).toList).wf :=
    Memory.writeBytes_wf _ hm (by rw [be64enc_length])
  have zeros {m : Memory} (hm : m.wf) {a n : Nat} (h : a + n ≤ 64) : (m.writeBytes a (List.replicate n 0x00)).wf :=
    Memory.writeBytes_wf _ hm (by rwa [List.length_replicate])
  rw [paddedBuf]
  split
  case isTrue h => exact lenField (zeros marked (by omega))
  case isFalse h => exact lenField (zeros (zeros marked (by omega)) (by omega))

/-! ### The commands in each phase -/

/-- Is a command admitted in a phase (rule R219)? -/
def admits (i : Instr) (p : Phase) : Bool :=
  match i with
  | .init | .resume _ _ => startAllowed p
  | .push _ | .final | .srcerr => streamAllowed p

theorem streamAllowed_iff {p : Phase} : streamAllowed p = true ↔ p = .absorb := by cases p <;> decide

/-- FAULT admits no command (rule R252). -/
theorem ne_fault_of_admits {i : Instr} {p : Phase} (ha : admits i p = true) : p ≠ .fault := by
  rintro rfl
  cases i <;> cases ha

/-- What an admitted command performs (rules R211 to R215). -/
def performs (i : Instr) (s : State) : Except Trap State :=
  match i with
  | .init => .ok (beginStream ivRom 0 s)
  | .resume fs ob => .ok (beginStream (parseState fs) ob s)
  | .push b => pAbsorb b s
  | .final => pPad s >>= fun t => .ok (setPhase .done (eSerialize t))
  | .srcerr => .error (.raised .sourceReadError)

/-- The five meanings share the frame of rule R210. -/
theorem exec_eq_runCommand (i : Instr) (s : State) : exec i s = runCommand (admits i) (performs i) s := by
  cases i <;> rfl

variable {s : State}

theorem exec_in_fault (i : Instr) (h : s.phase = .fault) : exec i s = .next s := by
  rw [exec_eq_runCommand, runCommand_fault h]

theorem exec_not_admitted {i : Instr} (h : s.phase ≠ .fault) (ha : admits i s.phase = false) :
    exec i s = .next (enterFault .protocolError s) := by
  rw [exec_eq_runCommand, runCommand_refused h ha]

theorem exec_admitted {i : Instr} (ha : admits i s.phase = true) : exec i s = settle s (performs i s) := by
  rw [exec_eq_runCommand, runCommand_performed (ne_fault_of_admits ha) ha]

/-- The stream commands are performed in ABSORB. -/
theorem exec_in_absorb {i : Instr} (hp : s.phase = .absorb) (ha : admits i .absorb = true) :
    exec i s = settle s (performs i s) := exec_admitted (hp ▸ ha)

/-- PUSH with no room in LEN (rule R244). -/
theorem exec_push_overflow (hp : s.phase = .absorb) (ho : lenOverflows s.len = true) (b : Byte) :
    exec (.push b) s = .next (enterFault .lengthOverflow s) := by
  rw [exec_in_absorb hp rfl, performs, pAbsorb_overflow b ho]
  rfl

/-- PUSH with room in LEN, on a block that holds `bs` (rule R151). -/
theorem exec_push (hp : s.phase = .absorb) (ho : lenOverflows s.len = false) {bs : List Byte}
    (hl : bs.length = s.ptr.toNat) (hb : HoldsBytes s.buf bs) (b : Byte) :
    ∃ w v x, exec (.push b) s = .next (pushed bs b w v x s) := by
  by_cases hfull : s.ptr = 63
  · have h63 : bs.length = 63 := by rw [hl, hfull]; rfl
    obtain ⟨w, v, x, habsorb⟩ := pAbsorb_full b ho hfull h63 hb
    refine ⟨w, v, x, ?_⟩
    rw [exec_in_absorb hp rfl, performs, habsorb, pushed, absorbH, if_pos h63, hfull]
    rfl
  · have h63 : bs.length ≠ 63 := fun h => hfull (BitVec.eq_of_toNat_eq (hl.symm.trans h))
    refine ⟨s.w, s.v, s.t, ?_⟩
    rw [exec_in_absorb hp rfl, performs, pAbsorb_inside b ho hfull, pushed, absorbH, if_neg h63]
    rfl

/-- FINAL on a block that holds `bs`, in a stream without padding blocks (rules R155, R156, R214). -/
theorem exec_final (hp : s.phase = .absorb) (hc : s.padcnt = 0) {bs : List Byte} (hl : bs.length = s.ptr.toNat)
    (hb : HoldsBytes s.buf bs) : ∃ w v x, exec .final s = .next (finished bs w v x s) := by
  have hlt : s.ptr.toNat < 64 := s.ptr.isLt
  by_cases h : bs.length ≤ 55
  · obtain ⟨w, v, x, hpad⟩ := pPad_one hb hl.symm h
    refine ⟨w, v, x, ?_⟩
    rw [exec_in_absorb hp rfl, performs, hpad, hc, if_pos (by decide)]
    simp only [finished, paddedH, paddedBuf, if_pos h]
    rfl
  · obtain ⟨w, v, x, hpad⟩ := pPad_two hb hl.symm (by omega) (by omega)
    refine ⟨w, v, x, ?_⟩
    rw [exec_in_absorb hp rfl, performs, hpad, hc, if_pos (by decide)]
    simp only [finished, paddedH, paddedBuf, if_neg h]
    rfl

/-! ### What a command can do -/

/-- What a command can do in a state that meets the invariant: one constructor per way it can end. -/
inductive Effect (s : State) : Instr → State → Prop
  | ignored {i : Instr} (hp : s.phase = .fault) : Effect s i s
  | refused {i : Instr} (hp : s.phase ≠ .fault) (ha : admits i s.phase = false) :
      Effect s i (enterFault .protocolError s)
  | begun (ha : admits .init s.phase = true) : Effect s .init (beginStream ivRom 0 s)
  | resumed {fs : Port} {ob : Len} (ha : admits (.resume fs ob) s.phase = true) :
      Effect s (.resume fs ob) (beginStream (parseState fs) ob s)
  | overflowed {b : Byte} (hp : s.phase = .absorb) (ho : lenOverflows s.len = true) :
      Effect s (.push b) (enterFault .lengthOverflow s)
  | pushed {b : Byte} {bs : List Byte} (hp : s.phase = .absorb) (ho : lenOverflows s.len = false)
      (hl : bs.length = s.ptr.toNat) (hb : HoldsBytes s.buf bs) (w : Vector Word 64) (v : Vector Word 8)
      (x : BitVec 6) : Effect s (.push b) (pushed bs b w v x s)
  | finished {bs : List Byte} (hp : s.phase = .absorb) (hl : bs.length = s.ptr.toNat) (hb : HoldsBytes s.buf bs)
      (w : Vector Word 64) (v : Vector Word 8) (x : BitVec 6) : Effect s .final (finished bs w v x s)
  | sourceFailed (hp : s.phase = .absorb) : Effect s .srcerr (enterFault .sourceReadError s)

/-- In a state that meets the invariant every command answers a next state, in one of the ways of `Effect`. -/
theorem exec_effect (hi : Inv s) (i : Instr) : ∃ t, exec i s = .next t ∧ Effect s i t := by
  by_cases hf : s.phase = .fault
  · exact ⟨_, exec_in_fault i hf, .ignored hf⟩
  cases ha : admits i s.phase with
  | false => exact ⟨_, exec_not_admitted hf ha, .refused hf ha⟩
  | true =>
    cases i with
    | init => exact ⟨_, exec_admitted ha, .begun ha⟩
    | resume fs ob => exact ⟨_, exec_admitted ha, .resumed ha⟩
    | push b =>
      have hp := streamAllowed_iff.1 ha
      cases ho : lenOverflows s.len with
      | true => exact ⟨_, exec_push_overflow hp ho b, .overflowed hp ho⟩
      | false =>
        obtain ⟨bs, hl, hb⟩ := writtenBelow_holds (hi.written hp)
        obtain ⟨w, v, x, h⟩ := exec_push hp ho hl hb b
        exact ⟨_, h, .pushed hp ho hl hb w v x⟩
    | final =>
      have hp := streamAllowed_iff.1 ha
      obtain ⟨bs, hl, hb⟩ := writtenBelow_holds (hi.written hp)
      obtain ⟨w, v, x, h⟩ := exec_final hp (hi.padcntZero hp) hl hb
      exact ⟨_, h, .finished hp hl hb w v x⟩
    | srcerr => exact ⟨_, exec_admitted ha, .sourceFailed (streamAllowed_iff.1 ha)⟩

/-! ### The step, by the input it takes -/

theorem step_no_input (h : s.inputs = []) : step s = .next s := by
  simp only [step, fetch, h, idleStep]

theorem step_command {tx : Transaction} {rest : List HostInput} {i : Instr} (h : s.inputs = .command tx :: rest)
    (hd : decode tx = .ok i) : step s = exec i { s with inputs := rest } := by
  simp only [step, fetch, h, hd]

theorem illegalCommand_in_fault (h : s.phase = .fault) : illegalCommand s = .next s := by
  rw [illegalCommand, if_pos h]

theorem illegalCommand_raises (h : s.phase ≠ .fault) : illegalCommand s = .next (enterFault .illegalCommand s) := by
  rw [illegalCommand, if_neg h]
  rfl

end Sys2Proof.Machine
end

section
/-! What a step can do, and the invariant along it (`10_state.md` rules R28 to R33, R103). -/

namespace Sys2Proof.Safety

open Sys2Proof.Machine

variable {s t : State}

/-- The invariant says nothing of the inputs. -/
theorem Inv.withInputs (hi : Inv s) (is : List HostInput) : Inv { s with inputs := is } :=
  ⟨hi.bufWf, hi.causeIff, hi.noPaddingFault, hi.padcntZero, hi.written, hi.padcntDone, hi.digestDone⟩

/-! ### What a step can do -/

/-- What a step can do in a state that meets the invariant: one constructor per kind of input, an illegal word being
ignored in FAULT and raising IllegalCommand elsewhere. -/
inductive StepEffect (s : State) : State → Prop
  | idle (hin : s.inputs = []) : StepEffect s s
  | reset {rest : List HostInput} (hin : s.inputs = .reset :: rest) :
      StepEffect s (resetCore { s with inputs := rest })
  | illegalIgnored {tx : Transaction} {rest : List HostInput} {why : Illegal} (hin : s.inputs = .command tx :: rest)
      (hd : decode tx = .error why) (hp : s.phase = .fault) : StepEffect s { s with inputs := rest }
  | illegalRaised {tx : Transaction} {rest : List HostInput} {why : Illegal} (hin : s.inputs = .command tx :: rest)
      (hd : decode tx = .error why) (hp : s.phase ≠ .fault) :
      StepEffect s (enterFault .illegalCommand { s with inputs := rest })
  | command {tx : Transaction} {rest : List HostInput} {i : Instr} {t : State} (hin : s.inputs = .command tx :: rest)
      (hd : decode tx = .ok i) (he : Effect { s with inputs := rest } i t) : StepEffect s t

/-- In a state that meets the invariant a step answers a next state, in one of the ways of `StepEffect`. -/
theorem step_effect (hi : Inv s) : ∃ t, step s = .next t ∧ StepEffect s t := by
  match hin : s.inputs with
  | [] => exact ⟨s, step_no_input hin, .idle hin⟩
  | .reset :: rest => exact ⟨_, step_reset hin, .reset hin⟩
  | .command tx :: rest =>
    cases hd : decode tx with
    | ok i =>
      obtain ⟨t, hexec, heffect⟩ := exec_effect (hi.withInputs rest) i
      exact ⟨t, (step_command hin hd).trans hexec, .command hin hd heffect⟩
    | error why =>
      by_cases hf : s.phase = .fault
      · exact ⟨_, (step_illegal hin hd).trans (illegalCommand_in_fault hf), .illegalIgnored hin hd hf⟩
      · exact ⟨_, (step_illegal hin hd).trans (illegalCommand_raises hf), .illegalRaised hin hd hf⟩

/-- The inversion of the step: whatever state it answers, it got there in one of the ways of `StepEffect`. -/
theorem stepEffect_of_step (hi : Inv s) (h : step s = .next t) : StepEffect s t := by
  obtain ⟨u, hu, heffect⟩ := step_effect hi
  rw [h] at hu
  rwa [Host.Outcome.next.inj hu]

/-! ### Each state a command leads to -/

/-- Outside FAULT no cause is latched. -/
theorem Inv.cause_none (hi : Inv s) (hp : s.phase ≠ .fault) : s.cause = .none := hi.causeIff.2 hp

/-- Outside ABSORB and DONE the invariant speaks of BUF and CAUSE only. -/
theorem inv_of_no_stream (hwf : s.buf.wf) (hcause : s.cause = .none ↔ s.phase ≠ .fault)
    (hpad : s.cause ≠ .paddingInvariantViolation) (habsorb : s.phase ≠ .absorb) (hdone : s.phase ≠ .done) : Inv s :=
  ⟨hwf, hcause, hpad, (absurd · habsorb), (absurd · habsorb), (absurd · hdone), (absurd · hdone)⟩

/-- Every `raise` but the padding fault's keeps the invariant. -/
theorem Inv.enterFault (hi : Inv s) {c : Cause} (h0 : c ≠ .none) (h2 : c ≠ .paddingInvariantViolation) :
    Inv (enterFault c s) :=
  inv_of_no_stream hi.bufWf (iff_of_false h0 (absurd rfl ·)) h2 (nomatch ·) (nomatch ·)

/-- The reset event leads to a state that meets the invariant, from any state. -/
theorem inv_resetCore (s : State) : Inv (resetCore s) :=
  inv_of_no_stream ⟨.nil, fun _ hc => nomatch hc⟩ (iff_of_true rfl (nomatch ·)) (nomatch ·) (nomatch ·)
    (nomatch ·)

theorem Inv.beginStream (hi : Inv s) (hp : s.phase ≠ .fault) (h : Vector Word 8) (o : Len) :
    Inv (beginStream h o s) where
  bufWf := hi.bufWf
  causeIff := iff_of_true (hi.cause_none hp) (nomatch ·)
  noPaddingFault := hi.noPaddingFault
  padcntZero := fun _ => rfl
  written := fun _ a ha => absurd ha (Nat.not_lt_zero a)
  padcntDone := (nomatch ·)
  digestDone := (nomatch ·)

theorem Inv.pushed (hi : Inv s) (hp : s.phase = .absorb) {bs : List Byte} (hl : bs.length = s.ptr.toNat)
    (hb : HoldsBytes s.buf bs) (b : Byte) (w : Vector Word 64) (v : Vector Word 8) (x : BitVec 6) :
    Inv (pushed bs b w v x s) where
  bufWf := Memory.write_wf hi.bufWf s.ptr.isLt b
  causeIff := hi.causeIff
  noPaddingFault := hi.noPaddingFault
  padcntZero := hi.padcntZero
  written := fun _ a ha => by
    have hheld := writtenBelow_of_holds (holdsBytes_snoc hb b)
    rw [List.length_append, List.length_singleton, hl] at hheld
    exact hheld a (Nat.lt_of_lt_of_le ha (ptr_succ_le s.ptr))
  padcntDone := fun h => nomatch hp.symm.trans h
  digestDone := fun h => nomatch hp.symm.trans h

theorem Inv.finished (hi : Inv s) (hp : s.phase = .absorb) {bs : List Byte} (hl : bs.length = s.ptr.toNat)
    (w : Vector Word 64) (v : Vector Word 8) (x : BitVec 6) : Inv (finished bs w v x s) where
  bufWf := paddedBuf_wf hi.bufWf (hl ▸ s.ptr.isLt) s.len
  causeIff := iff_of_true (hi.cause_none (by simp [hp])) (nomatch ·)
  noPaddingFault := hi.noPaddingFault
  padcntZero := (nomatch ·)
  written := (nomatch ·)
  padcntDone := fun _ => by rw [Machine.finished, hl]
  digestDone := fun _ => rfl

/-! ### The invariant along every step -/

/-- Every command keeps the invariant. -/
theorem Inv.effect (hi : Inv s) {i : Instr} (he : Effect s i t) : Inv t := by
  cases he with
  | ignored => exact hi
  | refused => exact hi.enterFault (nomatch ·) (nomatch ·)
  | begun ha | resumed ha => exact hi.beginStream (ne_fault_of_admits ha) _ _
  | overflowed => exact hi.enterFault (nomatch ·) (nomatch ·)
  | pushed hp _ hl hb w v x => exact hi.pushed hp hl hb _ w v x
  | finished hp hl _ w v x => exact hi.finished hp hl w v x
  | sourceFailed => exact hi.enterFault (nomatch ·) (nomatch ·)

/-- Settles O40: each way a step can end keeps the invariant. -/
theorem stepKeepsInvariant : Obligations.StepKeepsInvariant := by
  unfold Obligations.StepKeepsInvariant
  intro s t hi hstep
  cases stepEffect_of_step hi hstep with
  | idle => exact hi
  | reset => exact inv_resetCore _
  | illegalIgnored => exact hi.withInputs _
  | illegalRaised => exact (hi.withInputs _).enterFault (nomatch ·) (nomatch ·)
  | command _ _ he => exact (hi.withInputs _).effect he

/-- Settles O41: under the invariant every way a step can end is a next state. -/
theorem stepAlwaysCompletes : Obligations.StepAlwaysCompletes := by
  unfold Obligations.StepAlwaysCompletes
  intro s hi
  obtain ⟨t, hstep, -⟩ := step_effect hi
  exact ⟨t, hstep⟩

/-- Settles O39: IDLE and CAUSE 0 leave only the canonical form of the empty BUF to show. -/
theorem resetMeetsInvariant : Obligations.ResetMeetsInvariant :=
  inv_of_no_stream reset_buf_wf (iff_of_true rfl (nomatch ·)) (nomatch ·) (nomatch ·) (nomatch ·)

/-! ### Who writes DIGEST and CAUSE -/

/-- A command that changes DIGEST is FINAL in ABSORB, ending in DONE. -/
theorem effect_digest {i : Instr} (he : Effect s i t) (hne : t.digest ≠ s.digest) :
    i = .final ∧ s.phase = .absorb ∧ t.phase = .done := by
  cases he with
  | finished hp => exact ⟨rfl, hp, rfl⟩
  | ignored | refused | begun | resumed | overflowed | pushed | sourceFailed => exact absurd rfl hne

/-- Settles O44: of the ways a step can end only the reset event and a completed FINAL touch DIGEST. -/
theorem digestWrittenOnlyByFinal : Obligations.DigestWrittenOnlyByFinal := by
  unfold Obligations.DigestWrittenOnlyByFinal
  intro s t hi hstep hne
  cases stepEffect_of_step hi hstep with
  | reset hin => exact .inr ⟨_, hin⟩
  | command hin hd he =>
    obtain ⟨rfl, hp, hdone⟩ := effect_digest he hne
    exact .inl ⟨_, _, hin, hd, hp, hdone⟩
  | idle | illegalIgnored | illegalRaised => exact absurd rfl hne

/-- A command that changes CAUSE was given outside FAULT and ends in FAULT. -/
theorem effect_cause {i : Instr} (he : Effect s i t) (hne : t.cause ≠ s.cause) :
    s.phase ≠ .fault ∧ t.phase = .fault := by
  cases he with
  | refused hp => exact ⟨hp, rfl⟩
  | overflowed hp | sourceFailed hp => exact ⟨by simp [hp], rfl⟩
  | ignored | begun | resumed | pushed | finished => exact absurd rfl hne

/-- Settles O47: of the ways a step can end only the reset event and a `raise` touch CAUSE, and a `raise` happens
outside FAULT, where the invariant says that CAUSE is 0. -/
theorem causeLatched : Obligations.CauseLatched := by
  unfold Obligations.CauseLatched
  intro s t hi hstep hne
  cases stepEffect_of_step hi hstep with
  | reset hin => exact .inr ⟨_, hin⟩
  | illegalRaised _ _ hp => exact .inl ⟨hi.cause_none hp, rfl⟩
  | command hin hd he =>
    obtain ⟨hp, hfault⟩ := effect_cause he hne
    exact .inl ⟨hi.cause_none hp, hfault⟩
  | idle | illegalIgnored => exact absurd rfl hne

end Sys2Proof.Safety
end

section
/-! Noninterference: what the host cannot see never reaches it (`10_state.md` rules R40, R42), and the ports that show
what it can (rules R33, R287). -/

namespace Sys2Proof.Safety

open Sys2Proof.Machine

variable {s t : State}

/-! ### Each state a command leads to, from two states that look alike -/

theorem Alike.statusPort (ha : Alike s t) : statusPort s = statusPort t := by
  rw [Machine.statusPort, Machine.statusPort, ha.phase, ha.cause]

theorem Alike.digestPort (ha : Alike s t) : digestPort s = digestPort t := by
  have hphase := ha.phase
  have hdigest := ha.digest
  cases hp : s.phase with
  | done => simp only [Machine.digestPort, hp, ← hphase, hdigest hp]
  | idle | absorb | fault => simp only [Machine.digestPort, hp, ← hphase]

theorem Alike.withInputs (ha : Alike s t) (is : List HostInput) :
    Alike { s with inputs := is } { t with inputs := is } :=
  ⟨ha.phase, ha.cause, rfl, ha.h, ha.ptr, ha.len, ha.padcnt, ha.bytes, ha.digest⟩

/-- Outside ABSORB and DONE the host sees PHASE and CAUSE only. -/
theorem alike_of_no_stream (hphase : s.phase = t.phase) (hcause : s.cause = t.cause) (hin : s.inputs = t.inputs)
    (habsorb : s.phase ≠ .absorb) (hdone : s.phase ≠ .done) : Alike s t :=
  ⟨hphase, hcause, hin, (absurd · habsorb), (absurd · habsorb), (absurd · habsorb), (absurd · habsorb),
    (absurd · habsorb), (absurd · hdone)⟩

theorem Alike.resetCore (ha : Alike s t) : Alike (resetCore s) (resetCore t) :=
  alike_of_no_stream rfl rfl ha.inputs (nomatch ·) (nomatch ·)

theorem Alike.enterFault (ha : Alike s t) (c : Cause) : Alike (enterFault c s) (enterFault c t) :=
  alike_of_no_stream rfl rfl ha.inputs (nomatch ·) (nomatch ·)

theorem Alike.beginStream (ha : Alike s t) (h : Vector Word 8) (o : Len) :
    Alike (beginStream h o s) (beginStream h o t) where
  phase := rfl
  cause := ha.cause
  inputs := ha.inputs
  h := fun _ => rfl
  ptr := fun _ => rfl
  len := fun _ => rfl
  padcnt := fun _ => rfl
  bytes := fun _ a hlt => absurd hlt (Nat.not_lt_zero a)
  digest := (nomatch ·)

/-- The bytes of the partial block are the same in both states. -/
theorem Alike.holdsBytes (ha : Alike s t) (hp : s.phase = .absorb) {bs : List Byte} (hl : bs.length = s.ptr.toNat)
    (hb : HoldsBytes s.buf bs) : HoldsBytes t.buf bs := by
  intro i b hi
  have hlt : i < s.ptr.toNat := hl ▸ (List.getElem?_eq_some_iff.1 hi).1
  rw [← ha.bytes hp i hlt, hb i b hi]

theorem Alike.pushed (ha : Alike s t) (hp : s.phase = .absorb) (bs : List Byte) (b : Byte)
    (w w' : Vector Word 64) (v v' : Vector Word 8) (x x' : BitVec 6) :
    Alike (pushed bs b w v x s) (pushed bs b w' v' x' t) where
  phase := ha.phase
  cause := ha.cause
  inputs := ha.inputs
  h := fun _ => congrArg (absorbH · bs b) (ha.h hp)
  ptr := fun _ => congrArg (· + 1) (ha.ptr hp)
  len := fun _ => congrArg (· + 8) (ha.len hp)
  padcnt := ha.padcnt
  bytes := fun _ a hlt => by
    have hle : a ≤ s.ptr.toNat := Nat.le_of_lt_succ (Nat.lt_of_lt_of_le hlt (ptr_succ_le s.ptr))
    show (s.buf.write s.ptr.toNat b).read a = (t.buf.write t.ptr.toNat b).read a
    rw [Memory.read_write, Memory.read_write, ← ha.ptr hp]
    split
    case isTrue => rfl
    case isFalse hne => exact ha.bytes hp a (Nat.lt_of_le_of_ne hle hne)
  digest := fun h => nomatch hp.symm.trans h

theorem Alike.finished (ha : Alike s t) (hp : s.phase = .absorb) (bs : List Byte)
    (w w' : Vector Word 64) (v v' : Vector Word 8) (x x' : BitVec 6) :
    Alike (finished bs w v x s) (finished bs w' v' x' t) where
  phase := rfl
  cause := ha.cause
  inputs := ha.inputs
  h := (nomatch ·)
  ptr := (nomatch ·)
  len := (nomatch ·)
  padcnt := (nomatch ·)
  bytes := (nomatch ·)
  digest := fun _ => by
    show serializeState (paddedH s.h bs s.len) = serializeState (paddedH t.h bs t.len)
    rw [ha.h hp, ha.len hp]

/-! ### The step -/

/-- A PUSH in ABSORB: both streams overflow, or both take the byte into the same partial block. -/
theorem Alike.exec_push (ha : Alike s t) (hi : Inv s) (hp : s.phase = .absorb) (b : Byte) :
    ∃ s' t', exec (.push b) s = .next s' ∧ exec (.push b) t = .next t' ∧ Alike s' t' := by
  have hp' : t.phase = .absorb := ha.phase ▸ hp
  cases ho : lenOverflows s.len with
  | true =>
    exact ⟨_, _, exec_push_overflow hp ho b, exec_push_overflow hp' (ha.len hp ▸ ho) b, ha.enterFault _⟩
  | false =>
    obtain ⟨bs, hl, hb⟩ := writtenBelow_holds (hi.written hp)
    obtain ⟨w, v, x, hs⟩ := Machine.exec_push hp ho hl hb b
    obtain ⟨w', v', x', ht⟩ :=
      Machine.exec_push hp' (ha.len hp ▸ ho) (ha.ptr hp ▸ hl) (ha.holdsBytes hp hl hb) b
    exact ⟨_, _, hs, ht, ha.pushed hp bs b w w' v v' x x'⟩

/-- A FINAL in ABSORB: both streams pad the same partial block. -/
theorem Alike.exec_final (ha : Alike s t) (hi : Inv s) (hp : s.phase = .absorb) :
    ∃ s' t', exec .final s = .next s' ∧ exec .final t = .next t' ∧ Alike s' t' := by
  have hp' : t.phase = .absorb := ha.phase ▸ hp
  have hc := hi.padcntZero hp
  obtain ⟨bs, hl, hb⟩ := writtenBelow_holds (hi.written hp)
  obtain ⟨w, v, x, hs⟩ := Machine.exec_final hp hc hl hb
  obtain ⟨w', v', x', ht⟩ :=
    Machine.exec_final hp' (ha.padcnt hp ▸ hc) (ha.ptr hp ▸ hl) (ha.holdsBytes hp hl hb)
  exact ⟨_, _, hs, ht, ha.finished hp bs w w' v v' x x'⟩

/-- Every command leads states that look alike to states that look alike. -/
theorem Alike.exec (ha : Alike s t) (hi : Inv s) (i : Instr) :
    ∃ s' t', exec i s = .next s' ∧ exec i t = .next t' ∧ Alike s' t' := by
  by_cases hf : s.phase = .fault
  · exact ⟨_, _, exec_in_fault i hf, exec_in_fault i (ha.phase ▸ hf), ha⟩
  have hf' : t.phase ≠ .fault := ha.phase ▸ hf
  cases hadm : admits i s.phase with
  | false => exact ⟨_, _, exec_not_admitted hf hadm, exec_not_admitted hf' (ha.phase ▸ hadm), ha.enterFault _⟩
  | true =>
    have hadm' : admits i t.phase = true := ha.phase ▸ hadm
    cases i with
    | init => exact ⟨_, _, exec_admitted hadm, exec_admitted hadm', ha.beginStream _ _⟩
    | resume => exact ⟨_, _, exec_admitted hadm, exec_admitted hadm', ha.beginStream _ _⟩
    | push b => exact ha.exec_push hi (streamAllowed_iff.1 hadm) b
    | final => exact ha.exec_final hi (streamAllowed_iff.1 hadm)
    | srcerr => exact ⟨_, _, exec_admitted hadm, exec_admitted hadm', ha.enterFault _⟩

/-- An illegal word is ignored in both states or raises IllegalCommand in both. -/
theorem Alike.illegalCommand (ha : Alike s t) :
    ∃ s' t', illegalCommand s = .next s' ∧ illegalCommand t = .next t' ∧ Alike s' t' := by
  by_cases hf : s.phase = .fault
  · exact ⟨_, _, illegalCommand_in_fault hf, illegalCommand_in_fault (ha.phase ▸ hf), ha⟩
  · exact ⟨_, _, illegalCommand_raises hf, illegalCommand_raises (ha.phase ▸ hf), ha.enterFault _⟩

/-- Every step leads states that look alike to states that look alike. -/
theorem Alike.step (ha : Alike s t) (hi : Inv s) :
    ∃ s' t', step s = .next s' ∧ step t = .next t' ∧ Alike s' t' := by
  have hin' : t.inputs = s.inputs := ha.inputs.symm
  match hin : s.inputs with
  | [] => exact ⟨s, t, step_no_input hin, step_no_input (hin'.trans hin), ha⟩
  | .reset :: rest => exact ⟨_, _, step_reset hin, step_reset (hin'.trans hin), (ha.withInputs rest).resetCore⟩
  | .command tx :: rest =>
    cases hd : decode tx with
    | ok i =>
      rw [step_command hin hd, step_command (hin'.trans hin) hd]
      exact (ha.withInputs rest).exec (hi.withInputs rest) i
    | error why =>
      rw [step_illegal hin hd, step_illegal (hin'.trans hin) hd]
      exact (ha.withInputs rest).illegalCommand

/-- Settles O48: the step keeps `Alike`, and the two ports show only what `Alike` speaks of. -/
theorem hiddenStateNeverObserved : Obligations.HiddenStateNeverObserved := by
  unfold Obligations.HiddenStateNeverObserved
  intro s t hs _ ha
  obtain ⟨s', t', hstep, hstep', ha'⟩ := ha.step hs
  exact ⟨s', t', hstep, hstep', ha', ha'.statusPort, ha'.digestPort⟩

end Sys2Proof.Safety

namespace Sys2Proof.Machine

open Sys2Proof.Safety

/-! ### E_COMPRESS -/

theorem seedVars_injective : Function.Injective seedVars :=
  Function.LeftInverse.injective (g := Vars.words) words_seedVars

/-- Settles O38: both states hold the same block, and `eCompress_ok` gives H, W, V and T from H and the block. -/
theorem compressIgnoresScratch : Obligations.CompressIgnoresScratch := by
  unfold Obligations.CompressIgnoresScratch
  intro s t hh hwritten hread
  obtain ⟨block, hl, hb⟩ := writtenBelow_holds hwritten
  have hb' : HoldsBytes t.buf block := fun i b hi => by
    rw [← hread i (hl ▸ (List.getElem?_eq_some_iff.1 hi).1), hb i b hi]
  obtain ⟨w, v, x, hs, hw, hv, rfl⟩ := eCompress_ok hl hb
  obtain ⟨w', v', x', ht, hw', hv', rfl⟩ := eCompress_ok hl hb'
  refine ⟨_, _, hs, ht, congrArg (compress · block) hh, ?w, ?v, rfl, rfl, rfl⟩
  case w => exact Vector.toList_inj.1 (hw.trans hw'.symm)
  case v => exact seedVars_injective (by rw [hv, hv', hh])

/-! ### The transaction a step takes -/

/-- A command word is its opcode and its immediate side by side (rule R90). -/
theorem opField_append_immField (w : CmdWord) : opField w ++ immField w = w := by
  rw [opField, immField, BitVec.extractLsb'_append_extractLsb'_eq_extractLsb' (by omega)]
  exact BitVec.extractLsb'_eq_self

/-- With any word but RESUME's, decode does not look at the ports. -/
theorem decode_congr_word {tx tx' : Transaction} (hw : tx.word = tx'.word) (hne : tx.word ≠ 0x200) :
    decode tx = decode tx' := by
  have hresume : opField tx'.word = 0x2 → immField tx'.word ≠ 0 := fun hop himm => by
    refine hne (hw.trans ?_)
    rw [← opField_append_immField tx'.word, hop, himm]
    rfl
  by_cases hop : opField tx'.word = 0x2
  · simp only [decode, hw, if_pos (hresume hop)]
  · simp only [decode, hw, if_neg hop]

/-- Settles O45: the step sees the ports through decode alone. -/
theorem onlyResumeReadsPorts : Obligations.OnlyResumeReadsPorts := by
  unfold Obligations.OnlyResumeReadsPorts
  intro s tx tx' rest hw hne
  have hports := decode_congr_word hw hne
  cases hd : decode tx' with
  | ok i =>
    rw [step_command (s := { s with inputs := .command tx :: rest }) rfl (hports.trans hd),
      step_command (s := { s with inputs := .command tx' :: rest }) rfl hd]
  | error why =>
    rw [step_illegal (s := { s with inputs := .command tx :: rest }) rfl (hports.trans hd),
      step_illegal (s := { s with inputs := .command tx' :: rest }) rfl hd]

/-- A number of the opcode table stands for a command iff it is a word of the port and decodes. -/
theorem decodeTableWord_eq_some_iff {nbits w : Nat} {i : Instr} :
    decodeTableWord nbits w = some i ↔ ∃ tx, tableTransaction nbits w = some tx ∧ decode tx = .ok i := by
  cases htx : tableTransaction nbits w with
  | none => simp [decodeTableWord, htx]
  | some tx => cases hd : decode tx <;> simp [decodeTableWord, htx, hd]

/-- Settles O7: the offered word is the next input, and taking it leaves the state it was offered in. -/
theorem offeredTableWordRuns : Obligations.OfferedTableWordRuns := by
  unfold Obligations.OfferedTableWordRuns
  intro s nbits w i hdecode
  obtain ⟨tx, htx, hd⟩ := decodeTableWord_eq_some_iff.1 hdecode
  rw [State.withFetchWord, offerTableWord, htx]
  exact step_command rfl hd

end Sys2Proof.Machine
end

section
/-! What the ports show (`10_state.md` rules R33, R287), and the state after reset (rule R41). -/

namespace Sys2Proof.Machine

/-! ### The DIGEST port -/

theorem digestPort_eq_none_iff (s : State) : digestPort s = none ↔ s.phase ≠ .done := by
  cases hp : s.phase <;> simp [digestPort, hp]

theorem digestPort_of_done {s : State} (hp : s.phase = .done) : digestPort s = some (portOfBytes s.digest) := by
  simp only [digestPort, hp]

/-- Byte `j` of the bytes a port shows stands at bits 255-8j : 248-8j (rule R107). -/
theorem portOfBytes_extractLsb' (d : Vector Byte 32) (j : Nat) (hj : j < 32) :
    (portOfBytes d).extractLsb' (248 - 8 * j) 8 = d[j] := by
  have hlt : beNat d.toList < 2 ^ 256 := by
    have := beNat_lt d.toList
    rw [Vector.length_toList] at this
    exact Nat.lt_of_lt_of_eq this (by norm_num)
  have hdigit := beNat_digit d.toList j (by rwa [Vector.length_toList])
  simp only [Vector.length_toList, Vector.getElem_toList] at hdigit
  have hpow : (2 : Nat) ^ (248 - 8 * j) = 256 ^ (32 - 1 - j) := by
    rw [show 248 - 8 * j = 8 * (32 - 1 - j) by omega, Nat.pow_mul]
  apply BitVec.eq_of_toNat_eq
  rw [BitVec.extractLsb'_toNat, portOfBytes, BitVec.toNat_ofNat, Nat.mod_eq_of_lt hlt, Nat.shiftRight_eq_div_pow,
    hpow]
  exact hdigit

/-- Settles O43: the port shows DIGEST in DONE, byte by byte in the layout of a port. -/
theorem digestPortOnlyInDone : Obligations.DigestPortOnlyInDone := by
  unfold Obligations.DigestPortOnlyInDone
  refine fun s => ⟨digestPort_eq_none_iff s, fun p hport j hj => ?_⟩
  have hp : s.phase = .done := by
    by_contra hne
    rw [(digestPort_eq_none_iff s).2 hne] at hport
    cases hport
  rw [digestPort_of_done hp] at hport
  rw [← Option.some.inj hport, portOfBytes_extractLsb' s.digest j hj]

/-! ### After reset -/

/-- The commands that IDLE admits. -/
theorem admits_idle_iff (i : Instr) : admits i .idle = true ↔ i = .init ∨ ∃ fs ob, i = .resume fs ob := by
  cases i <;> simp [admits, startAllowed, streamAllowed]

/-- Settles O9: the outputs are those of IDLE with CAUSE 0; a command IDLE admits begins a stream, any other raises. -/
theorem resetStateOutputs : Obligations.ResetStateOutputs := by
  unfold Obligations.ResetStateOutputs
  refine ⟨rfl, rfl, rfl, rfl, rfl, fun _ => rfl, fun i => ?_⟩
  have hf : State.reset.phase ≠ .fault := (nomatch ·)
  rw [← admits_idle_iff]
  cases ha : admits i .idle with
  | false => exact ⟨_, exec_not_admitted hf ha, by simp⟩
  | true =>
    rcases (admits_idle_iff i).1 ha with rfl | ⟨fs, ob, rfl⟩
    · exact ⟨_, exec_admitted ha, by simp [beginStream]⟩
    · exact ⟨_, exec_admitted ha, by simp [beginStream]⟩

end Sys2Proof.Machine
end

section
/-! LEN and PTR count the bytes pushed (`10_state.md` rules R28, R29). -/

namespace Sys2Proof.Machine

open Sys2Proof.Safety

/-- PUSH's word decodes to PUSH with the byte it was encoded from (rules R94, R109). -/
theorem decode_encode_push (b : Byte) : decode (encode (.push b)) = .ok (.push b) := by
  have hop : opField (0x300 ||| b.setWidth 12) = 0x3 := by
    apply BitVec.eq_of_getLsbD_eq
    intro i hi
    interval_cases i <;> simp [opField]
  have himm : immField (0x300 ||| b.setWidth 12) = b := by
    apply BitVec.eq_of_getLsbD_eq
    intro i hi
    interval_cases i <;> simp [immField]
  simp only [decode, encode, encodeWord, hop, himm, if_pos]

theorem pushed_len_toNat {s : State} (hroom : s.len.toNat + 8 < 2 ^ 64) (bs : List Byte) (b : Byte)
    (w : Vector Word 64) (v : Vector Word 8) (x : BitVec 6) :
    (pushed bs b w v x s).len.toNat = s.len.toNat + 8 :=
  (BitVec.toNat_add s.len 8).trans (Nat.mod_eq_of_lt hroom)

theorem pushed_ptr_toNat (bs : List Byte) (b : Byte) (w : Vector Word 64) (v : Vector Word 8) (x : BitVec 6)
    (s : State) : (pushed bs b w v x s).ptr.toNat = (s.ptr.toNat + 1) % 64 :=
  BitVec.toNat_add s.ptr 1

/-- Settles O46, by induction on the bytes, each PUSH keeping the invariant. -/
theorem pushesCountBytes : Obligations.PushesCountBytes := by
  unfold Obligations.PushesCountBytes
  intro bytes
  induction bytes with
  | nil =>
    intro s _ hp _
    exact ⟨_, rfl, hp, rfl, (Nat.mod_eq_of_lt s.ptr.isLt).symm, rfl, rfl, rfl⟩
  | cons b bytes ih =>
    intro s hi hp hroom
    rw [List.length_cons] at hroom ⊢
    have hroom' : s.len.toNat + 8 < 2 ^ 64 := by omega
    obtain ⟨held, hl, hb⟩ := writtenBelow_holds (hi.written hp)
    obtain ⟨w, v, x, hexec⟩ := exec_push (s := { s with inputs := commands (bytes.map .push) }) hp
      (decide_eq_false (Nat.not_le.2 hroom')) hl hb b
    have hlen := pushed_len_toNat hroom' held b w v x
    have hptr := pushed_ptr_toNat held b w v x s
    obtain ⟨u, hsend, hpu, hlenu, hptru, hkept⟩ := ih _ (hi.pushed hp hl hb b w v x) hp (by omega)
    refine ⟨u, ?send, hpu, ?len, ?ptr, hkept⟩
    case send => exact (send_command (decode_encode_push b) hexec rfl).trans hsend
    case len => omega
    case ptr => omega

end Sys2Proof.Machine
end

section
/-! The ways a command that answers has ended, in any state (rules R210, R246, R252). -/

namespace Sys2Proof.Machine

variable {s t : State}

/-- How a command that answers `t` ended; the invariant is not asked for. -/
inductive Ends (i : Instr) (s : State) : State → Prop
  | ignored (hp : s.phase = .fault) : Ends i s s
  | refused (hp : s.phase ≠ .fault) (ha : admits i s.phase = false) : Ends i s (enterFault .protocolError s)
  | completed {t : State} (ha : admits i s.phase = true) (h : performs i s = .ok t) : Ends i s t
  | raised {c : Cause} (ha : admits i s.phase = true) (h : performs i s = .error (.raised c)) :
      Ends i s (raiseFault c s)

theorem ends_of_exec {i : Instr} (h : exec i s = .next t) : Ends i s t := by
  by_cases hf : s.phase = .fault
  · rw [exec_in_fault i hf] at h
    cases h
    exact .ignored hf
  cases ha : admits i s.phase with
  | false =>
    rw [exec_not_admitted hf ha] at h
    cases h
    exact .refused hf ha
  | true =>
    rw [exec_admitted ha] at h
    cases hr : performs i s with
    | ok u =>
      rw [hr, settle_ok] at h
      cases h
      exact .completed ha hr
    | error e =>
      cases e with
      | raised c =>
        rw [hr, settle_raised] at h
        cases h
        exact .raised ha hr
      | stopped f =>
        rw [hr, settle_stopped] at h
        cases h

end Sys2Proof.Machine
end

section
/-! What PUSH leaves unchanged (`20_memory.md` rule R65, `41_padder.md` rule R151, `43_commands.md` rule R213). -/

namespace Sys2Proof.Machine

open Sys2Proof.Safety

variable {s t : State} {b : Byte}

/-- P_ABSORB writes `BUF[PTR]`, LEN and PTR; inside a block nothing else, on its last byte H and the scratch as well.
PTR is 6 bits wide, so that `PTR + 1` is 0 after the last byte. -/
theorem pAbsorb_ok_eq (h : pAbsorb b s = .ok t) :
    ∃ h v x w, (s.ptr ≠ 63 → h = s.h ∧ v = s.v ∧ w = s.w ∧ x = s.t) ∧
      t = { s with h := h, v := v, t := x, w := w, buf := s.buf.write s.ptr.toNat b, len := s.len + 8,
                   ptr := s.ptr + 1 } := by
  obtain ⟨-, ⟨-, ht⟩ | ⟨hfull, bs, -, -, w, v, x, ht⟩⟩ := pAbsorb_inv h
  · exact ⟨s.h, s.v, s.t, s.w, fun _ => ⟨rfl, rfl, rfl, rfl⟩, ht⟩
  · refine ⟨compress s.h (bs ++ [b]), v, x, w, fun hne => absurd hfull hne, ?_⟩
    rw [ht, hfull]
    rfl

/-- PUSH is ignored, or raises a fault that writes PHASE and CAUSE only, or takes the byte in ABSORB. -/
theorem exec_push_inv (h : exec (.push b) s = .next t) :
    (s.phase = .fault ∧ t = s) ∨ (∃ c, t = enterFault c s) ∨ (s.phase = .absorb ∧ pAbsorb b s = .ok t) := by
  cases ends_of_exec h with
  | ignored hp => exact .inl ⟨hp, rfl⟩
  | refused => exact .inr (.inl ⟨_, rfl⟩)
  | completed ha hok => exact .inr (.inr ⟨streamAllowed_iff.1 ha, hok⟩)
  | raised _ hraised =>
    obtain ⟨rfl, -⟩ := pAbsorb_raises hraised
    exact .inr (.inl ⟨_, rfl⟩)

/-- Settles O17, by the three ways PUSH can end. -/
theorem pushFrame : Obligations.PushFrame := by
  unfold Obligations.PushFrame
  intro s t b hexec
  obtain ⟨hp, rfl⟩ | ⟨c, rfl⟩ | ⟨hp, hok⟩ := exec_push_inv hexec
  case inl => simp [hp]
  case inr.inl => simp
  case inr.inr =>
    obtain ⟨h, v, x, w, hinside, rfl⟩ := pAbsorb_ok_eq hok
    refine ⟨rfl, rfl, rfl, rfl, hinside, fun a ha => ?otherBytes, fun _ => ⟨rfl, ?ownByte⟩, fun hf => ?noFault,
      .inl rfl⟩
    case otherBytes => rw [Memory.read_write, if_neg ha]
    case ownByte => rw [Memory.read_write, if_pos rfl]
    case noFault => exact absurd (hp.symm.trans hf) (by decide)

end Sys2Proof.Machine
end

section
/-! The decoder line by line, and that it undoes the encoder (`30_encoding.md` rules R90 to R96, R109). -/

namespace Sys2Proof.Machine

/-! ### The two fields of a command word -/

/-- A command word is fixed by its opcode and its immediate. -/
theorem eq_append_iff {w : CmdWord} {op : BitVec 4} {imm8 : Byte} :
    w = op ++ imm8 ↔ opField w = op ∧ immField w = imm8 := by
  constructor
  · rintro rfl
    exact ⟨BitVec.extractLsb'_append_eq_left, BitVec.extractLsb'_append_eq_right⟩
  · rintro ⟨rfl, rfl⟩
    exact (opField_append_immField w).symm

/-- PUSH's word is its opcode beside its byte (rule R92). -/
theorem encodeWord_push (b : Byte) : encodeWord (.push b) = 0x3#4 ++ b := by
  rw [encodeWord, BitVec.append_def]
  rfl

/-! ### What decode answers -/

/-- What the decoder answers: one constructor per line of rule R109. -/
inductive Decodes (tx : Transaction) : Except Illegal Instr → Prop
  | push (hop : opField tx.word = 0x3) : Decodes tx (.ok (.push (immField tx.word)))
  | immediateNotZero (hop : opField tx.word ≠ 0x3) (himm : immField tx.word ≠ 0) :
      Decodes tx (.error (.immediateNotZero (opField tx.word) (immField tx.word)))
  | init (hop : opField tx.word = 0x1) (himm : immField tx.word = 0) : Decodes tx (.ok .init)
  | resume (hop : opField tx.word = 0x2) (himm : immField tx.word = 0) :
      Decodes tx (.ok (.resume tx.fstate tx.origbits))
  | final (hop : opField tx.word = 0x4) (himm : immField tx.word = 0) : Decodes tx (.ok .final)
  | srcerr (hop : opField tx.word = 0x5) (himm : immField tx.word = 0) : Decodes tx (.ok .srcerr)
  | noSuchOpcode (hop : opField tx.word = 0x0 ∨ 0x6 ≤ opField tx.word) (himm : immField tx.word = 0) :
      Decodes tx (.error (.noSuchOpcode (opField tx.word)))

/-- Beside PUSH's an opcode is unassigned or that of a command without an immediate (rule R92). -/
theorem opcode_cases : ∀ op : BitVec 4, op ≠ 0x3 →
    (op = 0x0 ∨ 0x6 ≤ op) ∨ op = 0x1 ∨ op = 0x2 ∨ op = 0x4 ∨ op = 0x5 := by decide

theorem decode_decodes (tx : Transaction) : Decodes tx (decode tx) := by
  rw [decode]
  split_ifs with h3 himm h1 h2 h4 h5
  · exact .push h3
  · exact .immediateNotZero h3 himm
  · exact .init h1 (not_not.1 himm)
  · exact .resume h2 (not_not.1 himm)
  · exact .final h4 (not_not.1 himm)
  · exact .srcerr h5 (not_not.1 himm)
  · exact .noSuchOpcode ((opcode_cases _ h3).resolve_right (by simp only [h1, h2, h4, h5, or_self, not_false_eq_true])) (not_not.1 himm)

/-- The inversion of decode. -/
theorem decodes_of_decode {tx : Transaction} {r : Except Illegal Instr} (h : decode tx = r) : Decodes tx r :=
  h ▸ decode_decodes tx

/-- A transaction is a command iff its word is the command's, RESUME's operands being what the ports show (rules R92,
R95). -/
theorem decode_eq_ok_iff {tx : Transaction} {i : Instr} :
    decode tx = .ok i ↔
      tx.word = encodeWord i ∧ ∀ fs ob, i = .resume fs ob → fs = tx.fstate ∧ ob = tx.origbits := by
  constructor
  · intro h
    cases decodes_of_decode h with
    | push hop => exact ⟨(eq_append_iff.2 ⟨hop, rfl⟩).trans (encodeWord_push _).symm, nofun⟩
    | init hop himm | final hop himm | srcerr hop himm => exact ⟨eq_append_iff.2 ⟨hop, himm⟩, nofun⟩
    | resume hop himm => exact ⟨eq_append_iff.2 ⟨hop, himm⟩, fun _ _ h => by cases h; exact ⟨rfl, rfl⟩⟩
  · obtain ⟨word, fstate, origbits⟩ := tx
    rintro ⟨rfl, hports⟩
    cases i with
    | init | final | srcerr => simp [decode, encodeWord, opField, immField]
    | resume fs ob =>
      obtain ⟨rfl, rfl⟩ := hports fs ob rfl
      simp [decode, encodeWord, opField, immField]
    | push b =>
      obtain ⟨hop, himm⟩ := eq_append_iff.1 (encodeWord_push b)
      simp [decode, hop, himm]

/-- Decoding an encoded command gives it back. -/
theorem decode_encode (i : Instr) : decode (encode i) = .ok i := by
  refine decode_eq_ok_iff.2 ?_
  cases i with
  | init | push | final | srcerr => exact ⟨rfl, nofun⟩
  | resume => exact ⟨rfl, fun _ _ h => by cases h; exact ⟨rfl, rfl⟩⟩

/-- Opcode 0x2 is RESUME with the operands the ports show. -/
theorem eq_resume_of_opField {tx : Transaction} {i : Instr} (h : decode tx = .ok i) (hop : opField tx.word = 0x2) :
    i = .resume tx.fstate tx.origbits := by
  cases decodes_of_decode h with
  | resume => rfl
  | push hop' | init hop' | final hop' | srcerr hop' => exact absurd (hop.symm.trans hop') (by decide)

/-- Settles O4: a transaction that decodes carries its command's word, and decode is a left inverse of encode. -/
theorem encodeDecodeRoundTrip : Obligations.EncodeDecodeRoundTrip := by
  unfold Obligations.EncodeDecodeRoundTrip
  refine ⟨decode_encode, fun tx i h => ?ownWord, fun i j hij => ?injective⟩
  case ownWord =>
    obtain ⟨hword, -⟩ := decode_eq_ok_iff.1 h
    refine ⟨hword.symm, fun hop => ?_⟩
    obtain rfl := eq_resume_of_opField h hop
    rw [encode, ← hword]
  case injective =>
    exact Except.ok.inj ((decode_encode i).symm.trans (hij ▸ decode_encode j))

/-- Settles O5: each legal word is an encoded command; the last three are no command's word. -/
theorem specWordsDecode : Obligations.SpecWordsDecode :=
  ⟨decode_encode .init, decode_encode (.resume 5 7), decode_encode (.push 0x00), decode_encode (.push 0x61),
    decode_encode (.push 0xff), decode_encode .final, decode_encode .srcerr, rfl, rfl, rfl⟩

/-! ### The opcode map -/

/-- PUSH's row of the opcode map (rule R92): the mask keeps the opcode alone. -/
theorem eq_encodeWord_push_iff {w : CmdWord} {b : Byte} :
    w = encodeWord (.push b) ↔ w &&& 0xF00 = 0x300 ∧ b = w.setWidth 8 := by
  have hmask : w &&& 0xF00 = opField w ++ 0#8 := by
    calc w &&& 0xF00 = (opField w ++ immField w) &&& (BitVec.allOnes 4 ++ 0#8) := by
          rw [opField_append_immField]; rfl
      _ = opField w ++ 0#8 := by rw [BitVec.and_append, BitVec.and_allOnes, BitVec.and_zero]
  have himm : w.setWidth 8 = immField w := BitVec.setWidth_eq_extractLsb' (by omega)
  rw [encodeWord_push, eq_append_iff, hmask, himm, show (0x300 : CmdWord) = 0x3#4 ++ 0#8 from rfl,
    BitVec.append_left_inj, eq_comm (a := b)]

/-- Settles O1: the masks 0xFFF keep the whole word, PUSH's keeps the opcode. -/
theorem decodeMatchesOpcodeMap : Obligations.DecodeMatchesOpcodeMap := by
  unfold Obligations.DecodeMatchesOpcodeMap
  intro tx
  have hmask : tx.word &&& 0xFFF = tx.word := BitVec.and_allOnes
  rw [hmask]
  refine ⟨?init, fun fs ob => ?resume, fun b => ?push, ?final, ?srcerr⟩
  case init | resume | final | srcerr => simp [decode_eq_ok_iff, encodeWord]
  case push => simp [decode_eq_ok_iff, eq_encodeWord_push_iff]

/-! ### Illegal words -/

/-- The two ways a word is illegal (rule R96). -/
theorem decode_error_iff (tx : Transaction) :
    (∃ why, decode tx = .error why) ↔
      (opField tx.word = 0x0 ∨ 0x6 ≤ opField tx.word) ∨
      ((opField tx.word = 0x1 ∨ opField tx.word = 0x2 ∨ opField tx.word = 0x4 ∨ opField tx.word = 0x5) ∧
        immField tx.word ≠ 0) := by
  generalize hr : decode tx = r
  cases decodes_of_decode hr with
  | push hop => simp [hop]
  | init hop himm | resume hop himm | final hop himm | srcerr hop himm => simp [hop, himm]
  | noSuchOpcode hop => exact iff_of_true ⟨_, rfl⟩ (.inl hop)
  | immediateNotZero hop himm => exact iff_of_true ⟨_, rfl⟩ ((opcode_cases _ hop).imp_right (⟨·, himm⟩))

/-- The numbers of the legal words: one each for INIT, RESUME, FINAL and SRCERR, 256 for PUSH (rule R96). -/
def legalNumbers : List Nat := [0x100, 0x200, 0x400, 0x500] ++ List.range' 0x300 256

theorem legalNumbers_nodup : legalNumbers.Nodup := by
  refine List.nodup_append'.2 ⟨by decide, List.nodup_range', ?_⟩
  simp [List.mem_range'_1]

theorem lt_of_mem_legalNumbers {n : Nat} (h : n ∈ legalNumbers) : n < 4096 := by
  simp only [legalNumbers, List.mem_append, List.mem_cons, List.not_mem_nil, or_false, List.mem_range'_1] at h
  omega

theorem encodeWord_push_toNat (b : Byte) : (encodeWord (.push b)).toNat = 0x300 + b.toNat := by
  rw [encodeWord_push, BitVec.toNat_append, ← Nat.shiftLeft_add_eq_or_of_lt b.isLt]
  rfl

theorem encodeWord_mem_legalNumbers (i : Instr) : (encodeWord i).toNat ∈ legalNumbers := by
  cases i with
  | init | resume | final | srcerr => simp [encodeWord, legalNumbers]
  | push b =>
    rw [encodeWord_push_toNat]
    exact List.mem_append_right _ (List.mem_range'_1.2 ⟨by omega, by omega⟩)

/-- A number up to 4095 is a legal word's iff it is one of the 260. -/
theorem decode_toBool_iff {n : Nat} (hn : n < 4096) :
    (decode ⟨BitVec.ofNat 12 n, 0, 0⟩).toBool = true ↔ n ∈ legalNumbers := by
  constructor
  · intro h
    cases hd : decode ⟨BitVec.ofNat 12 n, 0, 0⟩ with
    | error why => rw [hd] at h; cases h
    | ok i =>
      have hword : (BitVec.ofNat 12 n).toNat = (encodeWord i).toNat := congrArg BitVec.toNat (decode_eq_ok_iff.1 hd).1
      rw [BitVec.toNat_ofNat, Nat.mod_eq_of_lt hn] at hword
      exact hword ▸ encodeWord_mem_legalNumbers i
  · intro h
    rcases List.mem_append.1 h with h | h
    · fin_cases h <;> rfl
    · obtain ⟨hlo, hhi⟩ := List.mem_range'_1.1 h
      have hword : BitVec.ofNat 12 n = encodeWord (.push (BitVec.ofNat 8 (n - 0x300))) := by
        apply BitVec.eq_of_toNat_eq
        rw [encodeWord_push_toNat, BitVec.toNat_ofNat, BitVec.toNat_ofNat]
        omega
      rw [(decode_eq_ok_iff (i := .push _)).2 ⟨hword, nofun⟩]
      rfl

/-- Of the 4096 words those that decode are the 260 legal ones. -/
theorem filter_decode_perm_legalNumbers :
    ((List.range 4096).filter (fun n => (decode ⟨BitVec.ofNat 12 n, 0, 0⟩).toBool)).Perm legalNumbers := by
  refine (List.perm_ext_iff_of_nodup (List.nodup_range.filter _) legalNumbers_nodup).2 fun n => ?_
  rw [List.mem_filter, List.mem_range, and_congr_right decode_toBool_iff]
  exact and_iff_right_of_imp lt_of_mem_legalNumbers

/-- Settles O2: the two ways of `decode_error_iff`, the count by the list of the legal numbers, and the step on a word
that fails to decode. -/
theorem illegalWordsRejected : Obligations.IllegalWordsRejected := by
  unfold Obligations.IllegalWordsRejected
  refine ⟨decode_error_iff, ?count, fun s tx rest hin hwhy => ?step⟩
  case count =>
    rw [filter_decode_perm_legalNumbers.length_eq, legalNumbers, List.length_append, List.length_range']
    rfl
  case step =>
    obtain ⟨why, hd⟩ := hwhy
    rw [step_illegal hin hd]
    exact ⟨fun hf => ⟨_, illegalCommand_raises hf, rfl, rfl⟩, fun hf => illegalCommand_in_fault hf⟩

end Sys2Proof.Machine
end

section
/-! A state in 32 bytes and on the two ports (`30_encoding.md` rule R107), and the STATUS word (rule R103). -/

namespace Sys2Proof.Machine

open Sys2Proof.Safety

/-- 32 bits that agree byte by byte agree. -/
theorem extractLsb'_eq_of_bytes {n m : Nat} {x : BitVec n} {y : BitVec m} {i j : Nat}
    (h : ∀ k, k < 4 → x.extractLsb' (i + (24 - 8 * k)) 8 = y.extractLsb' (j + (24 - 8 * k)) 8) :
    x.extractLsb' i 32 = y.extractLsb' j 32 := by
  apply BitVec.eq_of_getLsbD_eq
  intro b hb
  have hbit := congrArg (BitVec.getLsbD · (b % 8)) (h (3 - b / 8) (by omega))
  have hpos (i : Nat) : i + (24 - 8 * (3 - b / 8)) + b % 8 = i + b := by omega
  have hmod : b % 8 < 8 := Nat.mod_lt b (by decide)
  simpa only [BitVec.getLsbD_extractLsb', hmod, hb, hpos] using hbit

/-- Byte `k` of BE32_ENCODE (rule R131). -/
theorem be32enc_getElem (w : Word) (k : Nat) (hk : k < 4) : (be32enc w)[k] = w.extractLsb' (24 - 8 * k) 8 := by
  interval_cases k <;> rfl

theorem serializeState_getElem (h : Vector Word 8) (i k : Nat) (hi : i < 8) (hk : k < 4) :
    (serializeState h)[4 * i + k] = h[i].extractLsb' (24 - 8 * k) 8 := by
  have hdiv : (4 * i + k) / 4 = i := by omega
  have hmod : (4 * i + k) % 4 = k := by omega
  rw [serializeState, Vector.getElem_ofFn]
  simp only [hdiv, hmod, be32enc_getElem]

theorem portOfBytes_toNat (d : Vector Byte 32) : (portOfBytes d).toNat = beNat d.toList := by
  have hlt := beNat_lt d.toList
  rw [Vector.length_toList, show 256 ^ 32 = 2 ^ 256 by norm_num] at hlt
  rw [portOfBytes, BitVec.toNat_ofNat, Nat.mod_eq_of_lt hlt]

theorem parseState_getElem (p : Port) (i : Nat) (hi : i < 8) :
    (parseState p)[i] = p.extractLsb' (224 - 32 * i) 32 := by
  rw [parseState, Vector.getElem_ofFn, portWord]

/-- A word of a serialised state stands on the port where RESUME looks for it. -/
theorem portOfBytes_serializeState_word (h : Vector Word 8) (i : Nat) (hi : i < 8) :
    (portOfBytes (serializeState h)).extractLsb' (224 - 32 * i) 32 = h[i] := by
  rw [← BitVec.extractLsb'_eq_self (x := h[i])]
  refine extractLsb'_eq_of_bytes fun k hk => ?_
  have hbyte := portOfBytes_extractLsb' (serializeState h) (4 * i + k) (by omega)
  rw [serializeState_getElem h i k hi hk] at hbyte
  rw [Nat.zero_add, ← hbyte]
  congr 1
  omega

/-- Settles O32: each clause is the layout of one conversion. -/
theorem portLayout : Obligations.PortLayout :=
  ⟨serializeState_getElem, portOfBytes_extractLsb', portOfBytes_serializeState_word, parseState_getElem,
    portOfBytes_toNat⟩

/-! ### The STATUS port -/

theorem statusPort_phase (s : State) : (statusPort s).extractLsb' 0 2 = phaseCode s.phase :=
  BitVec.extractLsb'_append_eq_right

theorem statusPort_cause (s : State) : (statusPort s).extractLsb' 2 3 = causeCode s.cause :=
  BitVec.extractLsb'_append_eq_left

theorem causeCode_eq_zero_iff (c : Cause) : causeCode c = 0 ↔ c = .none := by cases c <;> decide

theorem phaseCode_eq_three_iff (p : Phase) : phaseCode p = 3 ↔ p = .fault := by cases p <;> decide

/-- Outside FAULT, STATUS is the code of PHASE alone. -/
theorem statusPort_of_ne_fault {s : State} (hi : Inv s) (hp : s.phase ≠ .fault) :
    statusPort s = 0#3 ++ phaseCode s.phase := by
  rw [statusPort, hi.cause_none hp]
  rfl

/-- Settles O42: outside FAULT CAUSE is 0 by the invariant, and in FAULT the word is read off CAUSE. -/
theorem statusWordValues : Obligations.StatusWordValues := by
  unfold Obligations.StatusWordValues
  refine ⟨fun s => ⟨statusPort_phase s, statusPort_cause s⟩, fun s hi => ⟨?iff, ?idle, ?absorb, ?done, ?fault⟩⟩
  case iff => rw [ne_eq, causeCode_eq_zero_iff, phaseCode_eq_three_iff, hi.causeIff, not_not]
  case idle | absorb | done =>
    intro hp
    rw [statusPort_of_ne_fault hi (by simp [hp]), hp]
    rfl
  case fault =>
    intro hp
    rw [statusPort, hp]
    cases s.cause <;> rfl

end Sys2Proof.Machine
end

section
/-! Message and padding in whole blocks (`41_padder.md` rules R159, R163, R166). -/

namespace Sys2Proof.Safety

open Sys2Proof.Machine

theorem pad_length (o n : Nat) : (pad o n).length = (if n % 64 ≤ 55 then 64 else 128) - n % 64 := by
  have hcount : (pad o n).length = zeroBytes n + 9 := by
    rw [pad, List.length_cons, List.length_append, List.length_replicate, be64enc_length]
  rw [hcount, zeroBytes]
  split <;> omega

theorem padded_length (o : Nat) (m : List Byte) :
    (padded o m).length = 64 * (m.length / 64 + if m.length % 64 ≤ 55 then 1 else 2) := by
  rw [padded, List.length_append, pad_length]
  split <;> omega

/-! ### Cutting into blocks -/

theorem takeBlocks_length (k : Nat) (l : List Byte) : (takeBlocks k l).length = k := by
  induction k generalizing l with
  | zero => rfl
  | succ k ih => rw [takeBlocks, List.length_cons, ih]

/-- A list of `k` blocks is cut into blocks of 64 bytes that concatenate to it. -/
theorem takeBlocks_of_length (k : Nat) {l : List Byte} (hl : l.length = 64 * k) :
    (∀ b ∈ takeBlocks k l, b.length = 64) ∧ (takeBlocks k l).flatten = l := by
  induction k generalizing l with
  | zero => exact ⟨nofun, (List.length_eq_zero_iff.1 hl).symm⟩
  | succ k ih =>
    obtain ⟨hsize, hflat⟩ := ih (l := l.drop 64) (by rw [List.length_drop]; omega)
    refine ⟨List.forall_mem_cons.2 ⟨?first, hsize⟩, ?flat⟩
    case first => rw [List.length_take]; omega
    case flat => rw [takeBlocks, List.flatten_cons, hflat, List.take_append_drop]

/-- Settles O49: the padded message is `k` blocks long, and so is cut into `k` blocks. -/
theorem paddedIsWholeBlocks : Obligations.PaddedIsWholeBlocks := by
  unfold Obligations.PaddedIsWholeBlocks
  intro o m
  have hlen := padded_length o m
  have hblocks : blocks (padded o m) =
      takeBlocks (m.length / 64 + if m.length % 64 ≤ 55 then 1 else 2) (padded o m) := by
    rw [blocks, hlen, Nat.mul_div_cancel_left _ (by omega)]
  rw [hblocks]
  exact ⟨hlen, pad_length o m.length, takeBlocks_length _ _, takeBlocks_of_length _ hlen⟩

end Sys2Proof.Safety
end

section
/-! The lines of a listing (`30_encoding.md` rules R99 to R102). -/

namespace Sys2Proof.Safety

open Sys2Proof.Machine

theorem expand_of_ill_formed {l : Listing} (h : l.wellFormed = false) : l.expand = none := by
  rw [Listing.expand.eq_def, h]
  rfl

/-- CONTINUE is well formed with a foreign state of 32 bytes and an offset that fits port ORIGBITS. -/
theorem wellFormed_continuation_iff {bytes fs : List Byte} {ob : Nat} :
    (Listing.continuation bytes fs ob).wellFormed = true ↔ fs.length = 32 ∧ ob < 2 ^ 64 := by
  simp only [Listing.wellFormed, fstateOk, origbitsOk, Bool.and_eq_true, beq_iff_eq, decide_eq_true_iff]

theorem expand_continuation (bytes : List Byte) (fs : Vector Byte 32) (ob : Len) :
    (Listing.continuation bytes fs.toList ob.toNat).expand = some (continueSequence bytes (portOfBytes fs) ob) := by
  rw [Listing.expand, if_pos (wellFormed_continuation_iff.2 ⟨Vector.length_toList, ob.isLt⟩)]
  simp only [BitVec.ofNat_toNat, BitVec.setWidth_eq]
  rfl

/-- Settles O56: PUSHS and DIGEST are always well formed, CONTINUE iff its two operands are. -/
theorem listingExpansion : Obligations.ListingExpansion := by
  unfold Obligations.ListingExpansion
  refine ⟨fun _ => rfl, fun _ => rfl, expand_continuation, fun bytes fs ob hbad => expand_of_ill_formed ?_⟩
  rw [Bool.eq_false_iff, ne_eq, wellFormed_continuation_iff]
  omega

end Sys2Proof.Safety
end

section
/-! The arithmetic primitives and the mixing functions bit by bit, and the big-endian converters
(`40_primitives.md` rules R120 to R133, R192). -/

namespace Sys2Proof.Machine

/-! ### Words bit by bit -/

/-- ROTR turns the 32 bits; beside the amounts 1 to 31 of rule R122, 0 and 32 leave the word as it is. -/
theorem rotr_getLsbD (x : Word) {n i : Nat} (hn : n ≤ 32) (hi : i < 32) :
    (rotr x n).getLsbD i = x.getLsbD ((i + n) % 32) := by
  rw [rotr, BitVec.getLsbD_or, BitVec.getLsbD_ushiftRight, BitVec.getLsbD_shiftLeft]
  by_cases hwrap : i + n < 32
  · have hshifted : i < 32 - n := by omega
    simp [hshifted, Nat.mod_eq_of_lt hwrap, Nat.add_comm n i]
  · have hentered : ¬ i < 32 - n := by omega
    have hpos : i - (32 - n) = (i + n) % 32 := by omega
    simp [hi, hentered, hpos, BitVec.getLsbD_of_ge x (n + i) (by omega)]

theorem shr_getLsbD (x : Word) (n i : Nat) : (shr x n).getLsbD i = x.getLsbD (i + n) := by
  rw [shr, BitVec.getLsbD_ushiftRight, Nat.add_comm]

/-- A mixing function of the message schedule: two rotations and a shift. -/
theorem xor3_rotr_rotr_shr_getLsbD (x : Word) {a b i : Nat} (c : Nat) (ha : a ≤ 32) (hb : b ≤ 32) (hi : i < 32) :
    (xor3 (rotr x a) (rotr x b) (shr x c)).getLsbD i =
      ((x.getLsbD ((i + a) % 32)).xor (x.getLsbD ((i + b) % 32))).xor (x.getLsbD (i + c)) := by
  rw [xor3_getLsbD, rotr_getLsbD x ha hi, rotr_getLsbD x hb hi, shr_getLsbD]

/-- A mixing function of the round: three rotations. -/
theorem xor3_rotr_rotr_rotr_getLsbD (x : Word) {a b c i : Nat} (ha : a ≤ 32) (hb : b ≤ 32) (hc : c ≤ 32)
    (hi : i < 32) :
    (xor3 (rotr x a) (rotr x b) (rotr x c)).getLsbD i =
      ((x.getLsbD ((i + a) % 32)).xor (x.getLsbD ((i + b) % 32))).xor (x.getLsbD ((i + c) % 32)) := by
  rw [xor3_getLsbD, rotr_getLsbD x ha hi, rotr_getLsbD x hb hi, rotr_getLsbD x hc hi]

theorem ch_getLsbD (x y z : Word) {i : Nat} (hi : i < 32) :
    (ch x y z).getLsbD i = if x.getLsbD i then y.getLsbD i else z.getLsbD i := by
  rw [ch, BitVec.getLsbD_xor, BitVec.getLsbD_and, BitVec.getLsbD_and, BitVec.getLsbD_not, decide_eq_true hi]
  cases x.getLsbD i <;> simp

/-- On bits, the exclusive or of the three pairwise products is the majority. -/
theorem xor_and_eq_majority : ∀ a b c : Bool, ((a && b).xor (a && c)).xor (b && c) =
    decide (2 ≤ a.toNat + b.toNat + c.toNat) := by decide

theorem maj_getLsbD (x y z : Word) (i : Nat) : (maj x y z).getLsbD i =
    decide (2 ≤ (x.getLsbD i).toNat + (y.getLsbD i).toNat + (z.getLsbD i).toNat) := by
  rw [maj, xor3_getLsbD, BitVec.getLsbD_and, BitVec.getLsbD_and, BitVec.getLsbD_and, xor_and_eq_majority]

/-- Settles O28: the amounts 1 to 31 are among those of `rotr_getLsbD`. -/
theorem rotrMovesBits : Obligations.RotrMovesBits := by
  unfold Obligations.RotrMovesBits
  intro x n _ hn i hi
  exact rotr_getLsbD x (by omega) hi

/-- Settles O29: SSIG0 and SSIG1 are two rotations and a shift, BSIG0 and BSIG1 three rotations. -/
theorem mixingFunctionBits : Obligations.MixingFunctionBits := by
  unfold Obligations.MixingFunctionBits
  intro x i hi
  refine ⟨fun n => shr_getLsbD x n i, ?ssig0, ?ssig1, ?bsig0, ?bsig1⟩
  case ssig0 | ssig1 => exact xor3_rotr_rotr_shr_getLsbD x _ (by decide) (by decide) hi
  case bsig0 | bsig1 => exact xor3_rotr_rotr_rotr_getLsbD x (by decide) (by decide) (by decide) hi

/-- Settles O30: the formulas of CH and MAJ on one bit. -/
theorem chooseAndMajorityBits : Obligations.ChooseAndMajorityBits := by
  unfold Obligations.ChooseAndMajorityBits
  intro x y z i hi
  exact ⟨ch_getLsbD x y z hi, maj_getLsbD x y z i⟩

/-- Settles O27: ADD32 is the sum of the ring of 32-bit words. -/
theorem add32Modular : Obligations.Add32Modular := by
  unfold Obligations.Add32Modular
  intro a b c
  exact ⟨BitVec.toNat_add a b, BitVec.add_assoc a b c, BitVec.add_comm a b, BitVec.add_zero a⟩

/-! ### The big-endian converters -/

/-- BE32_ENCODE undoes BE32_DECODE: each byte is a digit of the number in base 256 (rules R130, R131). -/
theorem be32enc_be32dec (b0 b1 b2 b3 : Byte) : be32enc (be32dec b0 b1 b2 b3) = #v[b0, b1, b2, b3] := by
  refine Vector.ext fun k hk => BitVec.eq_of_toNat_eq ?_
  have h0 := b0.isLt
  have h1 := b1.isLt
  have h2 := b2.isLt
  have h3 := b3.isLt
  rw [be32enc_getElem _ k hk, BitVec.extractLsb'_toNat, be32dec_toNat, Nat.shiftRight_eq_div_pow]
  interval_cases k <;> simp <;> omega

/-- A word is known by its four bytes (rule R131). -/
theorem be32enc_injective : Function.Injective be32enc := by
  intro v w hvw
  rw [← BitVec.extractLsb'_eq_self (x := v), ← BitVec.extractLsb'_eq_self (x := w)]
  refine extractLsb'_eq_of_bytes fun k hk => ?_
  rw [Nat.zero_add, ← be32enc_getElem v k hk, hvw, be32enc_getElem w k hk]

/-- BE32_DECODE undoes BE32_ENCODE, because encoding undoes decoding. -/
theorem be32dec_be32enc (w : Word) :
    be32dec (be32enc w)[0] (be32enc w)[1] (be32enc w)[2] (be32enc w)[3] = w :=
  be32enc_injective (be32enc_be32dec _ _ _ _)

/-- The eight words cover the port: every bit of it is a bit of one of them (rule R107). -/
theorem parseState_injective : Function.Injective parseState := by
  intro p q hpq
  apply BitVec.eq_of_getLsbD_eq
  intro b hb
  have hword (i : Nat) (hi : i < 8) : p.extractLsb' (224 - 32 * i) 32 = q.extractLsb' (224 - 32 * i) 32 := by
    rw [← parseState_getElem p i hi, hpq, parseState_getElem q i hi]
  have hbit := congrArg (BitVec.getLsbD · (b % 32)) (hword (7 - b / 32) (by omega))
  have hpos : 224 - 32 * (7 - b / 32) + b % 32 = b := by omega
  have hmod : b % 32 < 32 := Nat.mod_lt b (by decide)
  simpa only [BitVec.getLsbD_extractLsb', hmod, hpos, decide_true, Bool.true_and] using hbit

/-- RESUME reads a state from the port as it was serialised (rule R192). -/
theorem parseState_serializeState (h : Vector Word 8) : parseState (portOfBytes (serializeState h)) = h := by
  ext1 i hi
  rw [parseState_getElem _ i hi, portOfBytes_serializeState_word h i hi]

/-- Settles O31: a port is known by its words, so serialising undoes parsing because parsing undoes serialising. -/
theorem convertersRoundTrip : Obligations.ConvertersRoundTrip := by
  unfold Obligations.ConvertersRoundTrip
  exact ⟨be32dec_toNat, be32enc_be32dec, be32dec_be32enc,
    fun fs => parseState_injective (parseState_serializeState (parseState fs)), parseState_serializeState⟩

end Sys2Proof.Machine
end

section
/-! PUSH in every phase and each of its cases (`41_padder.md` rule R151, `43_commands.md` rules R213, R219). -/

namespace Sys2Proof.Machine

open Sys2Proof.Safety

variable {s : State}

/-- A phase in which a computation may be started admits no stream command, and ABSORB admits only those (rule R219). -/
theorem admits_eq_not_admits_absorb (hs : MayStart s) (i : Instr) : admits i s.phase = !admits i .absorb := by
  obtain hp | hp := hs <;> rw [hp] <;> cases i <;> rfl

/-- A stream command where a computation may be started raises ProtocolError (rule R246). -/
theorem exec_stream_out_of_phase (hs : MayStart s) {i : Instr} (hi : admits i .absorb = true) :
    exec i s = .next (enterFault .protocolError s) := by
  have hne : s.phase ≠ .fault := by obtain hp | hp := hs <;> simp [hp]
  exact exec_not_admitted hne (by rw [admits_eq_not_admits_absorb hs, hi]; rfl)

/-- LEN stays in its residue class modulo 8, wrapping or not, because 2^64 is a multiple of 8. -/
theorem len_add_eight_mod_eight (l : Len) : (l + 8).toNat % 8 = l.toNat % 8 := by
  have hadd : (l + 8).toNat = (l.toNat + 8) % 2 ^ 64 := BitVec.toNat_add l 8
  omega

/-- Settles O16: the three cases of P_ABSORB inside the frame of a command. -/
theorem pushCommand : Obligations.PushCommand := by
  unfold Obligations.PushCommand
  intro s b
  refine ⟨fun hp ho => ?overflow, fun hp hroom hin => ?inside, fun bs hp hroom hfull hl hb => ?full,
    len_add_eight_mod_eight s.len, fun hs => exec_stream_out_of_phase hs rfl, exec_in_fault _⟩
  case overflow => exact exec_push_overflow hp (decide_eq_true ho) b
  case inside =>
    rw [exec_in_absorb hp rfl, performs, pAbsorb_inside b (decide_eq_false (Nat.not_le.2 hroom)) hin, settle_ok]
  case full =>
    obtain ⟨w, v, x, habsorb⟩ := pAbsorb_full b (decide_eq_false (Nat.not_le.2 hroom)) hfull hl hb
    exact ⟨w, v, x, by rw [exec_in_absorb hp rfl, performs, habsorb, settle_ok]⟩

end Sys2Proof.Machine
end

section
/-! FINAL: its two paddings, what it leaves unchanged, and the padding check (`41_padder.md` rules R153 to R161,
`43_commands.md` rule R214). -/

namespace Sys2Proof.Machine

open Sys2Proof.Safety

variable {s t : State}

/-! ### The two paddings -/

/-- The one padding block as rule R155 lists its parts. -/
theorem blockOne_eq_append (bs : List Byte) (l : Len) :
    blockOne bs l = bs ++ [0x80] ++ List.replicate (55 - bs.length) 0x00 ++ (be64enc l).toList := by
  simp only [blockOne, List.append_assoc, List.cons_append, List.nil_append]

/-- The first of two padding blocks as rule R156 lists its parts. -/
theorem blockFirst_eq_append (bs : List Byte) :
    blockFirst bs = bs ++ [0x80] ++ List.replicate (63 - bs.length) 0x00 := by
  simp only [blockFirst, List.append_assoc, List.singleton_append]

/-- Settles O19: with at most 55 bytes the state FINAL leaves is padded by one block. -/
theorem finalOneBlock : Obligations.FinalOneBlock := by
  unfold Obligations.FinalOneBlock
  intro s bs hp hc hl hshort hb
  obtain ⟨w, v, x, hexec⟩ := exec_final hp hc hl.symm hb
  refine ⟨_, w, v, x, _, blockOne_eq_append bs s.len, blockOne_length s.len hshort,
    holds_padBufOne hb hshort s.len, ?_⟩
  rw [hexec, finished, paddedH, paddedBuf, if_pos hshort, if_pos hshort, if_pos hshort]

/-- Settles O20: with 56 bytes or more the state FINAL leaves is padded by two blocks. -/
theorem finalTwoBlocks : Obligations.FinalTwoBlocks := by
  unfold Obligations.FinalTwoBlocks
  intro s bs hp hc hl hlong hb
  have hlt : s.ptr.toNat < 64 := s.ptr.isLt
  have hnot : ¬ bs.length ≤ 55 := by omega
  obtain ⟨w, v, x, hexec⟩ := exec_final hp hc hl.symm hb
  refine ⟨_, _, w, v, x, _, blockFirst_eq_append bs, blockFirst_length (by omega), rfl, blockSecond_length s.len,
    holds_padBufSecond s.buf bs.length s.len, ?_⟩
  rw [hexec, finished, paddedH, paddedBuf, if_neg hnot, if_neg hnot, if_neg hnot]
  rfl

/-! ### The padding check -/

/-- On a written partial block with PADCNT not 0 the check of rule R161 fails: PADCNT, 2 bits wide, ends at 1 after one
block, or at 2 after two, only when it began at 0. -/
theorem pPad_of_padcnt_ne_zero (hc : s.padcnt ≠ 0) (hw : WrittenBelow s.buf s.ptr.toNat) :
    pPad s = .error (.raised .paddingInvariantViolation) := by
  have hlt : s.ptr.toNat < 64 := s.ptr.isLt
  obtain ⟨bs, hl, hb⟩ := writtenBelow_holds hw
  by_cases h : bs.length ≤ 55
  · obtain ⟨w, v, x, hpad⟩ := pPad_one hb hl.symm h
    rw [hpad, if_neg (by bv_omega)]
  · obtain ⟨w, v, x, hpad⟩ := pPad_two hb hl.symm (by omega) (by omega)
    rw [hpad, if_neg (by bv_omega)]

/-- Settles O22: the check fails, and `raise` keeps PTR, LEN, T and the inputs. -/
theorem finalPaddingFault : Obligations.FinalPaddingFault := by
  unfold Obligations.FinalPaddingFault
  intro s hp hc hw
  have hexec : exec .final s = .next (raiseFault .paddingInvariantViolation s) := by
    rw [exec_in_absorb hp rfl, performs, pPad_of_padcnt_ne_zero hc hw]
    rfl
  exact ⟨_, hexec, raiseFault_phase _ s, raiseFault_cause _ s, raiseFault_ptr _ s, raiseFault_len _ s,
    raiseFault_t _ s, raiseFault_inputs _ s⟩

/-! ### What FINAL leaves unchanged -/

/-- FINAL reaches DONE only from ABSORB and by the padding; the other ways it can end lead to FAULT. -/
theorem pPad_of_final_done (h : exec .final s = .next t) (hd : t.phase = .done) :
    s.phase = .absorb ∧ ∃ u, pPad s = .ok u := by
  cases ends_of_exec h with
  | ignored hp => exact nomatch hp.symm.trans hd
  | refused => exact nomatch hd
  | completed ha hok =>
    obtain ⟨u, hu, -⟩ := bind_ok_inv hok
    exact ⟨streamAllowed_iff.1 ha, u, hu⟩
  | raised => exact nomatch (raiseFault_phase _ s).symm.trans hd

/-- When FINAL answers a state in DONE, the partial block held some bytes, and they were padded. -/
theorem finished_of_final_done (h : exec .final s = .next t) (hd : t.phase = .done) :
    ∃ bs : List Byte, bs.length = s.ptr.toNat ∧ ∃ w v x, t = finished bs w v x s := by
  obtain ⟨hp, u, hu⟩ := pPad_of_final_done h hd
  have hw := pPad_inv hu
  have hc : s.padcnt = 0 := by
    by_contra hc
    exact nomatch (pPad_of_padcnt_ne_zero hc hw).symm.trans hu
  obtain ⟨bs, hl, hb⟩ := writtenBelow_holds hw
  obtain ⟨w, v, x, hexec⟩ := exec_final hp hc hl hb
  exact ⟨bs, hl, w, v, x, Host.Outcome.next.inj (h.symm.trans hexec)⟩

/-- The padding stores to no address from 64 on and, with one padding block, to none below PTR. -/
theorem read_paddedBuf_frame (m : Memory) {p a : Nat} (hp : p < 64) (l : Len) (ha : (a < p ∧ p ≤ 55) ∨ 64 ≤ a) :
    (paddedBuf m p l).read a = m.read a := by
  have hfield : a < 56 ∨ 64 ≤ a := by omega
  rw [paddedBuf]
  split
  case isTrue h =>
    rw [padBufOne, Memory.read_lenField_frame _ _ hfield, Memory.read_writeBytes,
      if_neg (by rw [List.length_replicate]; omega), Memory.read_write, if_neg (by omega)]
  case isFalse h =>
    rw [padBufSecond, Memory.read_lenField_frame _ _ hfield, Memory.read_writeBytes,
      if_neg (by rw [List.length_replicate]; omega), padBufFirst, Memory.read_writeBytes,
      if_neg (by rw [List.length_replicate]; omega), Memory.read_write, if_neg (by omega)]

/-- Settles O21: a completed FINAL leaves the state `finished` names, and BUF by the frame of the padding. -/
theorem finalFrame : Obligations.FinalFrame := by
  unfold Obligations.FinalFrame
  intro s t hexec hd
  obtain ⟨bs, hl, w, v, x, rfl⟩ := finished_of_final_done hexec hd
  refine ⟨rfl, rfl, rfl, rfl, rfl, rfl, fun a ha => ?_⟩
  rw [finished, hl]
  exact read_paddedBuf_frame s.buf s.ptr.isLt s.len ha

end Sys2Proof.Machine
end

section
/-! The engine's operations as the rules state them (`42_engine.md` rules R180 to R188): the register moves, one round,
and the schedule E_COMPRESS leaves in W. -/

namespace Sys2Proof.Machine

open Sys2Proof.Safety

/-! ### The register moves and the round -/

/-- Settles O37: each move is one field update; the bytes E_SERIALIZE writes are those of BE32_ENCODE. -/
theorem engineRegisterMoves : Obligations.EngineRegisterMoves := by
  unfold Obligations.EngineRegisterMoves
  refine fun s => ⟨rfl, rfl, ⟨_, rfl, fun i hi => ?sums⟩, ⟨_, rfl, fun i k hi hk => ?bytes⟩⟩
  case sums => exact Vector.getElem_zipWith hi
  case bytes => rw [serializeState_getElem s.h i k hi hk, be32enc_getElem _ k hk]

/-- Settles O36: E_ROUND reads all of V before it writes any of it. -/
theorem roundUpdate : Obligations.RoundUpdate := by
  unfold Obligations.RoundUpdate
  intro s a b c d e f g h t1 t2 hv ht1 ht2
  have hround1 : roundT1 s = t1 := by simp only [ht1, roundT1, hv]; rfl
  have hround2 : roundT2 s = t2 := by simp only [ht2, roundT2, hv]; rfl
  rw [eRound, roundV, hround1, hround2, hv]
  rfl

/-! ### The word schedule -/

theorem extendSchedule_length (k : Nat) (ws : List Word) : (extendSchedule k ws).length = ws.length + k := by
  induction k generalizing ws with
  | zero => rfl
  | succ k ih => rw [extendSchedule, ih, List.length_append, List.length_singleton]; omega

/-- Deriving further words leaves those before them as they are. -/
theorem isPrefix_extendSchedule (k : Nat) (ws : List Word) : ws <+: extendSchedule k ws := by
  induction k generalizing ws with
  | zero => exact List.prefix_refl ws
  | succ k ih => exact (List.prefix_append ws [nextWord ws]).trans (ih _)

/-- Every derived word is the next word of those before it (rule R183). -/
theorem extendSchedule_getElem? (k : Nat) (ws : List Word) {i : Nat} (hge : ws.length ≤ i) (hlt : i < ws.length + k) :
    (extendSchedule k ws)[i]? = some (nextWord ((extendSchedule k ws).take i)) := by
  induction k generalizing ws with
  | zero => omega
  | succ k ih =>
    rw [extendSchedule]
    have hpre := isPrefix_extendSchedule k (ws ++ [nextWord ws])
    obtain rfl | hgt := Nat.eq_or_lt_of_le hge
    · have htake : (extendSchedule k (ws ++ [nextWord ws])).take ws.length = ws :=
        (List.prefix_iff_eq_take.1 ((List.prefix_append ws _).trans hpre)).symm
      rw [htake, List.prefix_iff_getElem?.1 hpre ws.length (by simp), List.getElem_concat_length rfl]
    · exact ih _ (by simpa using hgt) (by rw [List.length_append, List.length_singleton]; omega)

variable {s : State} {block : List Byte}

theorem blockWords_length (hl : block.length = 64) : (blockWords block).length = 16 := by
  rw [blockWords_eq 16 block hl, List.length_map, List.length_range]

/-- A scheduled W begins with the words of the block (rule R182). -/
theorem w_eq_blockWord (hl : block.length = 64) (hw : s.w.toList = schedule block) {i : Nat} (hi : i < 16) :
    s.w[i] = blockWord block i := by
  have hpre : blockWords block <+: s.w.toList := hw ▸ isPrefix_extendSchedule 48 _
  have hword := hpre.getElem (i := i) (by rwa [blockWords_length hl])
  simpa [blockWords_eq 16 block hl] using hword.symm

theorem setT_t_toNat (s : State) {i : Nat} (hi : i < 64) : (setT i s).t.toNat = i := by
  rw [setT_t, BitVec.toNat_ofNat, Nat.mod_eq_of_lt hi]

/-- In a scheduled W every word from 16 on is the one E_EXPAND derives from the words before it (rule R183). -/
theorem w_eq_expandWord (hl : block.length = 64) (hw : s.w.toList = schedule block) {i : Nat} (hi : i < 48) :
    s.w[i + 16] = expandWord (setT (i + 16) s) := by
  have hlen := blockWords_length hl
  have ht := setT_t_toNat s (i := i + 16) (by omega)
  have hnext := nextWord_take (setT (i + 16) s) (by omega)
  have hderived := extendSchedule_getElem? 48 (blockWords block) (i := i + 16) (by omega) (by omega)
  rw [← schedule, ← hw] at hderived
  rw [ht, setT_w] at hnext
  obtain ⟨_, hword⟩ := List.getElem?_eq_some_iff.1 hderived
  exact hword.trans hnext

theorem expandWord_setT {i : Nat} (hi : i < 48) : expandWord (setT (i + 16) s) =
    add32 (add32 (add32 s.w[i] (ssig0 s.w[i + 1])) s.w[i + 9]) (ssig1 s.w[i + 14]) := by
  have ht := setT_t_toNat s (i := i + 16) (by omega)
  simp only [expandWord, wBack, ht, setT_w, Nat.add_sub_cancel, show i + 16 - 15 = i + 1 by omega,
    show i + 16 - 7 = i + 9 by omega, show i + 16 - 2 = i + 14 by omega]

/-- Settles O35: E_COMPRESS leaves the schedule of the block in W. -/
theorem scheduleRecurrence : Obligations.ScheduleRecurrence := by
  unfold Obligations.ScheduleRecurrence
  intro s block hl hb
  obtain ⟨w, v, t, hcompress, hw, -⟩ := eCompress_ok hl hb
  refine ⟨_, hcompress, fun i hi b0 b1 b2 b3 h0 h1 h2 h3 => ?verbatim, fun i hi => ?derived⟩
  case verbatim =>
    rw [w_eq_blockWord hl hw hi, blockWord]
    simp only [List.getD_eq_getElem?_getD, h0, h1, h2, h3, Option.getD_some]
  case derived => exact (w_eq_expandWord hl hw hi).trans (expandWord_setT hi)

end Sys2Proof.Machine
end

section
/-! Folding `compress` over a message in pieces (`42_engine.md` rules R190, R191): the whole blocks of what came first
are folded before, and only the rest of it meets what follows. -/

namespace Sys2Proof.Safety

open Sys2Proof.Machine

/-! ### The bytes after the last whole block -/

/-- What BUF holds of a message: the bytes after its last whole block (rules R26, R28). -/
def partialBlock (m : List Byte) : List Byte := m.drop (64 * (m.length / 64))

theorem partialBlock_length (m : List Byte) : (partialBlock m).length = m.length % 64 := by
  rw [partialBlock, List.length_drop]; omega

theorem partialBlock_of_whole {m : List Byte} (h : m.length % 64 = 0) : partialBlock m = [] :=
  List.length_eq_zero_iff.1 ((partialBlock_length m).trans h)

/-- One more byte stands after those held, as long as it does not complete the block. -/
theorem partialBlock_snoc (m : List Byte) (b : Byte) (h : m.length % 64 ≠ 63) :
    partialBlock (m ++ [b]) = partialBlock m ++ [b] := by
  have hdiv : (m ++ [b]).length / 64 = m.length / 64 := by
    rw [List.length_append, List.length_singleton]; omega
  rw [partialBlock, hdiv, List.drop_append_of_le_length (by omega), partialBlock]

/-! ### Folding in pieces -/

theorem takeBlocks_append (k j : Nat) {l : List Byte} (hl : l.length = 64 * k) (l' : List Byte) :
    takeBlocks (k + j) (l ++ l') = takeBlocks k l ++ takeBlocks j l' := by
  induction k generalizing l with
  | zero => rw [List.length_eq_zero_iff.1 hl, Nat.zero_add]; rfl
  | succ k ih =>
    have hfirst : 64 ≤ l.length := by omega
    rw [Nat.succ_add, takeBlocks, takeBlocks, List.take_append_of_le_length hfirst,
      List.drop_append_of_le_length hfirst, ih (by rw [List.length_drop]; omega), List.cons_append]

theorem foldBlocks_whole_append (h : Vector Word 8) {l : List Byte} (hl : l.length % 64 = 0) (l' : List Byte) :
    foldBlocks h (l ++ l') = foldBlocks (foldBlocks h l) l' := by
  have hcount : (l ++ l').length / 64 = l.length / 64 + l'.length / 64 := by rw [List.length_append]; omega
  rw [foldBlocks, blocks, hcount, takeBlocks_append _ _ (by omega), List.foldl_append]
  rfl

/-- Less than a block is not folded. -/
theorem foldBlocks_of_short (h : Vector Word 8) {l : List Byte} (hl : l.length < 64) : foldBlocks h l = h := by
  rw [foldBlocks, blocks, Nat.div_eq_of_lt hl]
  rfl

theorem foldBlocks_block (h : Vector Word 8) {b : List Byte} (hb : b.length = 64) :
    foldBlocks h b = compress h b := by
  rw [foldBlocks, blocks, hb]
  show compress h (b.take 64) = _
  rw [List.take_of_length_le hb.le]

/-- Bytes after the last whole block wait until enough follow. -/
theorem foldBlocks_append (h : Vector Word 8) (m x : List Byte) :
    foldBlocks h (m ++ x) = foldBlocks (foldBlocks h m) (partialBlock m ++ x) := by
  have hwhole : (m.take (64 * (m.length / 64))).length % 64 = 0 := by rw [List.length_take]; omega
  have hshort : (partialBlock m).length < 64 := by rw [partialBlock_length]; omega
  have hsplit : m.take (64 * (m.length / 64)) ++ partialBlock m = m := List.take_append_drop _ m
  have hm : foldBlocks h m = foldBlocks h (m.take (64 * (m.length / 64))) := by
    conv_lhs => rw [← hsplit]
    rw [foldBlocks_whole_append h hwhole, foldBlocks_of_short _ hshort]
  rw [hm, ← foldBlocks_whole_append h hwhole, ← List.append_assoc, hsplit]

/-- H after one more byte, as PUSH computes it (rule R151). -/
theorem foldBlocks_snoc (h : Vector Word 8) (m : List Byte) (b : Byte) :
    foldBlocks h (m ++ [b]) = absorbH (foldBlocks h m) (partialBlock m) b := by
  have hlen := partialBlock_length m
  have hlen' : (partialBlock m ++ [b]).length = m.length % 64 + 1 := by
    rw [List.length_append, hlen, List.length_singleton]
  rw [foldBlocks_append, absorbH]
  split
  case isTrue hfull => exact foldBlocks_block _ (by omega)
  case isFalse hfull => exact foldBlocks_of_short _ (by omega)

/-- H after the padding, as FINAL computes it (rules R155, R156). -/
theorem foldBlocks_padded (h : Vector Word 8) (o : Nat) (m : List Byte) :
    foldBlocks h (padded o m) =
      paddedH (foldBlocks h m) (partialBlock m) (BitVec.ofNat 64 (o + 8 * m.length)) := by
  have hlen := partialBlock_length m
  rw [padded, foldBlocks_append, paddedH]
  split
  case isTrue hone =>
    have hzeros : zeroBytes m.length = 55 - (partialBlock m).length := by rw [zeroBytes, if_pos (by omega), hlen]
    rw [pad, hzeros]
    exact foldBlocks_block _ (blockOne_length _ hone)
  case isFalse htwo =>
    have hfirst : (blockFirst (partialBlock m)).length = 64 := blockFirst_length (by omega)
    have hzeros : zeroBytes m.length = (63 - (partialBlock m).length) + 56 := by
      rw [zeroBytes, if_neg (by omega), hlen]; omega
    have hsplit : partialBlock m ++ pad o m.length =
        blockFirst (partialBlock m) ++ blockSecond (BitVec.ofNat 64 (o + 8 * m.length)) := by
      rw [pad, hzeros, List.replicate_add, blockFirst, blockSecond]
      simp only [List.append_assoc, List.cons_append]
    rw [hsplit, foldBlocks_whole_append _ (by rw [hfirst]), foldBlocks_block _ hfirst,
      foldBlocks_block _ (blockSecond_length _)]

/-! ### Continuing from a digest -/

/-- Whole blocks that came before count as an offset of their bit-length. -/
theorem pad_whole_add {l : Nat} (hl : l % 64 = 0) (n : Nat) : pad 0 (l + n) = pad (8 * l) n := by
  have hmod : (l + n) % 64 = n % 64 := by omega
  rw [pad, pad, zeroBytes, zeroBytes, hmod, Nat.zero_add, Nat.mul_add]

theorem padded_length_mod (o : Nat) (m : List Byte) : (padded o m).length % 64 = 0 := by
  rw [padded_length, Nat.mul_mod_right]

theorem parseState_runEngine (h : Vector Word 8) (o : Nat) (m : List Byte) :
    parseState (runEngine h o m) = foldBlocks h (padded o m) :=
  parseState_serializeState _

theorem paddedBits_eq (m : List Byte) : paddedBits m.length = 8 * (padded 0 m).length := by
  rw [paddedBits, padded, List.length_append]

/-- A message that begins with whole blocks is hashed by continuing from those. -/
theorem runEngine_whole_append (h : Vector Word 8) {l : List Byte} (hl : l.length % 64 = 0) (x : List Byte) :
    runEngine h 0 (l ++ x) = runEngine (foldBlocks h l) (8 * l.length) x := by
  rw [runEngine, padded, List.length_append, pad_whole_add hl, List.append_assoc, foldBlocks_whole_append h hl]
  rfl

/-- Settles O52: the padded message is a number of whole blocks, and RESUME reads their chaining state off the digest. -/
theorem continuationProperty : Obligations.ContinuationProperty := by
  unfold Obligations.ContinuationProperty
  intro m x _
  have hwhole := padded_length_mod 0 m
  rw [paddedBits_eq]
  refine ⟨by omega, ?_⟩
  calc continueDigest x (digest m) (8 * (padded 0 m).length)
      = runEngine (foldBlocks ivRom (padded 0 m)) (8 * (padded 0 m).length) x := by
        rw [continueDigest, digest, parseState_runEngine]
    _ = digest (padded 0 m ++ x) := (runEngine_whole_append ivRom hwhole x).symm

end Sys2Proof.Safety
end

section
/-! A computation as the host sends it: a command that begins a stream, one PUSH per byte, FINAL (`42_engine.md` rule
R190, `43_commands.md` rules R216, R217). -/

namespace Sys2Proof.Safety

open Sys2Proof.Machine

variable {s : State} {h0 : Vector Word 8} {o : Nat} {m : List Byte}

/-- The core is in a stream that began with chaining state `h0` and offset `o` and has taken the bytes `m`. -/
structure Absorbed (h0 : Vector Word 8) (o : Nat) (m : List Byte) (s : State) : Prop where
  phase  : s.phase = .absorb
  padcnt : s.padcnt = 0
  h      : s.h = foldBlocks h0 m
  ptr    : s.ptr.toNat = (partialBlock m).length
  len    : s.len.toNat = o + 8 * m.length
  bytes  : HoldsBytes s.buf (partialBlock m)

/-- What a stream has taken does not depend on the inputs still to come. -/
theorem Absorbed.withInputs (ha : Absorbed h0 o m s) (is : List HostInput) : Absorbed h0 o m { s with inputs := is } :=
  ⟨ha.phase, ha.padcnt, ha.h, ha.ptr, ha.len, ha.bytes⟩

theorem absorbed_beginStream (h0 : Vector Word 8) (o : Len) (s : State) :
    Absorbed h0 o.toNat [] (beginStream h0 o s) :=
  ⟨rfl, rfl, (foldBlocks_of_short h0 (by decide)).symm, rfl, rfl, holdsBytes_nil _⟩

/-! ### PUSH -/

theorem Absorbed.pushed (ha : Absorbed h0 o m s) (hroom : o + 8 * (m.length + 1) < 2 ^ 64) (b : Byte)
    (w : Vector Word 64) (v : Vector Word 8) (x : BitVec 6) :
    Absorbed h0 o (m ++ [b]) (pushed (partialBlock m) b w v x s) := by
  have hcount : (m ++ [b]).length = m.length + 1 := by rw [List.length_append, List.length_singleton]
  refine ⟨ha.phase, ha.padcnt, ?h, ?ptr, ?len, ?bytes⟩
  case h => rw [foldBlocks_snoc, ← ha.h]; rfl
  case ptr => rw [pushed_ptr_toNat, ha.ptr, partialBlock_length, partialBlock_length, hcount, Nat.mod_add_mod]
  case len => rw [pushed_len_toNat (by rw [ha.len]; omega), ha.len, hcount, Nat.mul_add, Nat.add_assoc]
  case bytes =>
    show HoldsBytes (s.buf.write s.ptr.toNat b) _
    by_cases hfull : m.length % 64 = 63
    · rw [partialBlock_of_whole (by rw [hcount]; omega)]
      exact holdsBytes_nil _
    · rw [partialBlock_snoc m b hfull, ha.ptr]
      exact holdsBytes_snoc ha.bytes b

/-- With room in LEN, PUSH takes its byte into the stream. -/
theorem Absorbed.exec_push (ha : Absorbed h0 o m s) (hroom : o + 8 * (m.length + 1) < 2 ^ 64) (b : Byte) :
    ∃ t, exec (.push b) s = .next t ∧ Absorbed h0 o (m ++ [b]) t ∧ t.cause = s.cause ∧ t.inputs = s.inputs := by
  have hlen := ha.len
  obtain ⟨w, v, x, hexec⟩ :=
    Machine.exec_push ha.phase (decide_eq_false (by omega)) ha.ptr.symm ha.bytes b
  exact ⟨_, hexec, ha.pushed hroom b w v x, rfl, rfl⟩

/-- One PUSH per byte takes all of them into the stream, by induction on the bytes. -/
theorem Absorbed.send_pushes (ha : Absorbed h0 o m s) (x : List Byte) (hroom : o + 8 * (m.length + x.length) < 2 ^ 64)
    (is : List Instr) :
    ∃ t, send s (commands (x.map .push ++ is)) = send t (commands is) ∧ Absorbed h0 o (m ++ x) t ∧
      t.cause = s.cause := by
  induction x generalizing s m with
  | nil => exact ⟨s, rfl, by rwa [List.append_nil], rfl⟩
  | cons b x ih =>
    rw [List.length_cons] at hroom
    obtain ⟨t, hexec, ht, hcause, hin⟩ :=
      (ha.withInputs (commands (x.map .push ++ is))).exec_push (by omega) b
    obtain ⟨u, hsend, hu, hcause'⟩ := ih ht (by rw [List.length_append, List.length_singleton]; omega)
    rw [List.append_assoc, List.singleton_append] at hu
    exact ⟨u, (send_command (decode_encode _) hexec hin).trans hsend, hu, hcause'.trans hcause⟩

/-! ### FINAL and the whole sequence -/

/-- FINAL leaves the engine's result for all bytes taken. -/
theorem Absorbed.send_final (ha : Absorbed h0 o m s) :
    ∃ t, send s (commands [.final]) = .next t ∧ t.phase = .done ∧ t.cause = s.cause ∧
      digestPort t = some (runEngine h0 o m) := by
  obtain ⟨w, v, x, hexec⟩ :=
    exec_final (s := { s with inputs := [] }) ha.phase ha.padcnt ha.ptr.symm ha.bytes
  refine ⟨_, send_command (decode_encode .final) hexec rfl, rfl, rfl, ?_⟩
  have hlen : s.len = BitVec.ofNat 64 (o + 8 * m.length) := by rw [← ha.len, BitVec.ofNat_toNat, BitVec.setWidth_eq]
  rw [runEngine, foldBlocks_padded, ← ha.h, ← hlen]
  exact digestPort_of_done rfl

/-- A command begins a stream with chaining state `h0` and offset `o`. -/
def Begins (i : Instr) (h0 : Vector Word 8) (o : Nat) : Prop :=
  admits i .absorb = false ∧ ∃ ob : Len, ob.toNat = o ∧ ∀ s, performs i s = .ok (beginStream h0 ob s)

theorem begins_init : Begins .init ivRom 0 := ⟨rfl, 0, rfl, fun _ => rfl⟩

theorem begins_resume (fs : Port) (ob : Len) : Begins (.resume fs ob) (parseState fs) ob.toNat :=
  ⟨rfl, ob, rfl, fun _ => rfl⟩

/-- Where a computation may be started, a command that begins a stream leaves one without bytes. -/
theorem Begins.exec {i : Instr} (hb : Begins i h0 o) (hs : MayStart s) :
    ∃ t, exec i s = .next t ∧ Absorbed h0 o [] t ∧ t.cause = s.cause ∧ t.inputs = s.inputs := by
  obtain ⟨hadmits, ob, rfl, hperforms⟩ := hb
  have ha : admits i s.phase = true := by rw [admits_eq_not_admits_absorb hs, hadmits]; rfl
  exact ⟨_, by rw [exec_admitted ha, hperforms, settle_ok], absorbed_beginStream h0 ob s, rfl, rfl⟩

/-- Where a computation may be started, a command that begins a stream and one PUSH per byte take the message in. -/
theorem Begins.send_stream {i : Instr} (hb : Begins i h0 o) (hs : MayStart s) (hroom : o + 8 * m.length < 2 ^ 64)
    (is : List Instr) :
    ∃ t, send s (commands (i :: m.map .push ++ is)) = send t (commands is) ∧ Absorbed h0 o m t ∧
      t.cause = s.cause := by
  obtain ⟨t, hexec, ht, hcause, hin⟩ := hb.exec (s := { s with inputs := commands (m.map .push ++ is) }) hs
  obtain ⟨u, hsend, hu, hcause'⟩ := ht.send_pushes m (by rwa [List.length_nil, Nat.zero_add]) is
  exact ⟨u, (send_command (decode_encode i) hexec hin).trans hsend, hu, hcause'.trans hcause⟩

/-- Where a computation may be started, the whole sequence leaves the engine's result on the DIGEST port. -/
theorem Begins.send_computation {i : Instr} (hb : Begins i h0 o) (hs : MayStart s) (hc : s.cause = .none)
    (hroom : o + 8 * m.length < 2 ^ 64) :
    ∃ t, send s (commands (i :: m.map .push ++ [.final])) = .next t ∧ t.phase = .done ∧ statusPort t = 0x02 ∧
      digestPort t = some (runEngine h0 o m) := by
  obtain ⟨t, hstream, ht, hcause⟩ := hb.send_stream hs hroom [.final]
  obtain ⟨u, hfinal, hdone, hcause', hdigest⟩ := ht.send_final
  refine ⟨u, hstream.trans hfinal, hdone, ?_, hdigest⟩
  rw [statusPort, hdone, hcause', hcause, hc]
  rfl

/-- Settles O50: INIT begins the stream of the IV at offset 0. -/
theorem digestSequenceComputesDigest : Obligations.DigestSequenceComputesDigest := by
  unfold Obligations.DigestSequenceComputesDigest
  intro m s hs hc hroom
  exact begins_init.send_computation hs hc (by rwa [Nat.zero_add])

/-- Settles O51: RESUME begins the stream of the foreign state at its offset. -/
theorem continueSequenceComputesContinuation : Obligations.ContinueSequenceComputesContinuation := by
  unfold Obligations.ContinueSequenceComputesContinuation
  intro x fs ob s hs hc hroom
  exact (begins_resume fs ob).send_computation hs hc hroom

end Sys2Proof.Safety
end

section
/-! INIT, RESUME and SRCERR phase by phase, and the step as the decoded command (`43_commands.md` rules R210 to R212,
R215). -/

namespace Sys2Proof.Machine

open Sys2Proof.Safety

variable {s : State}

/-- A command that begins a stream is performed where a computation may be started (rule R219). -/
theorem exec_start (hs : MayStart s) {i : Instr} (hi : admits i .absorb = false) :
    exec i s = settle s (performs i s) :=
  exec_admitted (by rw [admits_eq_not_admits_absorb hs, hi]; rfl)

/-- A command that begins a stream raises ProtocolError inside one (rule R246). -/
theorem exec_start_in_absorb (hp : s.phase = .absorb) {i : Instr} (hi : admits i .absorb = false) :
    exec i s = .next (enterFault .protocolError s) :=
  exec_not_admitted (by simp [hp]) (hp ▸ hi)

theorem exec_srcerr (hp : s.phase = .absorb) : exec .srcerr s = .next (enterFault .sourceReadError s) :=
  exec_in_absorb hp rfl

/-- What STATUS shows after SourceReadError (rules R103, R215). -/
theorem statusPort_sourceReadError (hp : s.phase = .fault) (hc : s.cause = .sourceReadError) :
    statusPort s = 0x07 := by
  rw [statusPort, hp, hc]
  rfl

/-- Beside PUSH no command has an immediate: a word with one is illegal (rules R96, R109). -/
theorem decode_immediate_not_zero {tx : Transaction} (hop : opField tx.word ≠ 0x3) (himm : immField tx.word ≠ 0) :
    decode tx = .error (.immediateNotZero (opField tx.word) (immField tx.word)) := by
  simp only [decode, if_neg hop, if_pos himm]

/-- Outside FAULT such a word raises IllegalCommand (rule R245). -/
theorem step_immediate_not_zero {tx : Transaction} {rest : List HostInput} (hin : s.inputs = .command tx :: rest)
    (hf : s.phase ≠ .fault) (hop : opField tx.word ≠ 0x3) (himm : immField tx.word ≠ 0) :
    step s = .next (enterFault .illegalCommand { s with inputs := rest }) :=
  (step_illegal hin (decode_immediate_not_zero hop himm)).trans (illegalCommand_raises hf)

/-- Settles O6: nothing stands around the command but the taking of the transaction. -/
theorem stepRunsDecodedCommand : Obligations.StepRunsDecodedCommand :=
  fun _ _ _ _ hin hd => step_command hin hd

/-- Settles O14: INIT begins a stream where one may begin, and is refused elsewhere. -/
theorem initCommand : Obligations.InitCommand := by
  unfold Obligations.InitCommand
  refine ⟨fun s hs => ⟨_, rfl, exec_start hs rfl, rfl⟩, fun s hp => exec_start_in_absorb hp rfl,
    fun s => exec_in_fault _, fun fs ob => decode_eq_ok_iff.2 ⟨rfl, nofun⟩, fun s tx rest hin hf hop himm => ?_⟩
  exact step_immediate_not_zero hin hf (ne_of_eq_of_ne hop (by decide)) himm

/-- RESUME with the serialised IV and offset 0 is INIT, because parsing undoes serialising (rules R181, R192). -/
theorem exec_resume_iv (s : State) : exec (.resume (portOfBytes (serializeState ivRom)) 0) s = exec .init s := by
  have hperforms : performs (.resume (portOfBytes (serializeState ivRom)) 0) = performs .init :=
    funext fun u => congrArg (fun h => Except.ok (beginStream h 0 u)) (parseState_serializeState ivRom)
  rw [exec_eq_runCommand, exec_eq_runCommand, hperforms]
  rfl

/-- In a stream that has just begun FINAL pads the empty block, whatever the offset. -/
theorem exec_final_beginStream (h : Vector Word 8) (o : Len) (s : State) :
    ∃ u, exec .final (beginStream h o s) = .next u ∧ u.phase = .done := by
  obtain ⟨w, v, x, hexec⟩ := exec_final (s := beginStream h o s) rfl rfl (bs := []) rfl (holdsBytes_nil _)
  exact ⟨_, hexec, rfl⟩

/-- Settles O15: RESUME begins a stream from its operands, neither of them validated, and is refused elsewhere; LEN is
looked at by PUSH only. -/
theorem resumeCommand : Obligations.ResumeCommand := by
  unfold Obligations.ResumeCommand
  refine ⟨fun s fs ob hs => ⟨parseState fs, parseState_getElem fs, exec_start hs rfl⟩,
    fun s fs ob hp => exec_start_in_absorb hp rfl, fun s fs ob => exec_in_fault _,
    fun fs ob => decode_encode (.resume fs ob), fun s tx rest hin hf hop himm => ?immediate, exec_resume_iv,
    fun s fs ob hs hob => ?greatOffset⟩
  case immediate => exact step_immediate_not_zero hin hf (ne_of_eq_of_ne hop (by decide)) himm
  case greatOffset =>
    have hoverflow : lenOverflows ob = true := decide_eq_true (by omega)
    exact ⟨beginStream (parseState fs) ob s, exec_start hs rfl,
      fun b => ⟨_, exec_push_overflow rfl hoverflow b, rfl⟩, exec_final_beginStream _ ob s⟩

/-- Settles O23: SRCERR raises in every phase but FAULT, and FAULT ignores what follows. -/
theorem srcerrCommand : Obligations.SrcerrCommand := by
  unfold Obligations.SrcerrCommand
  refine ⟨fun s hp => ⟨_, rfl, exec_srcerr hp, ?status, rfl, fun i => exec_in_fault i rfl⟩,
    fun s hs => exec_stream_out_of_phase hs rfl, fun s => exec_in_fault _,
    fun fs ob => decode_eq_ok_iff.2 ⟨rfl, nofun⟩, fun s tx rest hin hf hop himm => ?immediate⟩
  case status => exact statusPort_sourceReadError rfl rfl
  case immediate => exact step_immediate_not_zero hin hf (ne_of_eq_of_ne hop (by decide)) himm

end Sys2Proof.Machine
end

section
/-! The phase table (`43_commands.md` rule R219) against what a command can do. -/

namespace Sys2Proof.Safety

open Sys2Proof.Machine

variable {s t : State}

theorem startAllowed_iff {p : Phase} : startAllowed p = true ↔ p = .idle ∨ p = .done := by cases p <;> decide

/-- The column FAULT (rule R252). -/
theorem phaseTable_fault (i : Instr) (o : Bool) : phaseTable i .fault o = (.fault, none) := by cases i <;> rfl

/-- The cells of the commands a phase does not admit (rule R246). -/
theorem phaseTable_not_admitted {i : Instr} {p : Phase} (hp : p ≠ .fault) (ha : admits i p = false) (o : Bool) :
    phaseTable i p o = (.fault, some .protocolError) := by
  cases p with
  | fault => exact absurd rfl hp
  | idle | done | absorb => cases i <;> cases ha <;> rfl

/-- Whatever a command can do, PHASE and CAUSE end as the command's cell of the table says. -/
theorem effect_phaseTable {i : Instr} (he : Effect s i t) :
    t.phase = (phaseTable i s.phase (lenOverflows s.len)).1 ∧
    t.cause = (phaseTable i s.phase (lenOverflows s.len)).2.getD s.cause := by
  cases he with
  | ignored hp => rw [hp, phaseTable_fault]; exact ⟨rfl, rfl⟩
  | refused hp ha => rw [phaseTable_not_admitted hp ha]; exact ⟨rfl, rfl⟩
  | begun ha | resumed ha => obtain hp | hp := startAllowed_iff.1 ha <;> rw [hp] <;> exact ⟨rfl, rfl⟩
  | overflowed hp ho => rw [hp, ho]; exact ⟨rfl, rfl⟩
  | pushed hp ho => rw [hp, ho]; exact ⟨hp, rfl⟩
  | finished hp | sourceFailed hp => rw [hp]; exact ⟨rfl, rfl⟩

/-- Settles O13: the commands by `effect_phaseTable`, an illegal word by the phase, the reset event from any state. -/
theorem phaseTransitionTable : Obligations.PhaseTransitionTable := by
  unfold Obligations.PhaseTransitionTable
  intro s hi
  refine ⟨fun i => ?command, fun tx rest hin hwhy => ?illegal, fun rest hin => ⟨_, step_reset hin, rfl⟩⟩
  case command =>
    obtain ⟨t, hexec, heffect⟩ := exec_effect hi i
    exact ⟨t, hexec, effect_phaseTable heffect⟩
  case illegal =>
    obtain ⟨why, hd⟩ := hwhy
    rw [step_illegal hin hd]
    by_cases hf : s.phase = .fault
    · exact ⟨_, illegalCommand_in_fault hf, hf, (if_pos hf).symm⟩
    · exact ⟨_, illegalCommand_raises hf, rfl, (if_neg hf).symm⟩

end Sys2Proof.Safety
end

section
/-! Sequences of commands: length extension (`43_commands.md` rule R223), and the source that fails (rules R216, R241,
R252). -/

namespace Sys2Proof.Safety

open Sys2Proof.Machine

variable {s : State}

/-! ### Length extension -/

/-- STATUS 0x02 shows CAUSE 0 (rule R103). -/
theorem cause_none_of_statusPort_done (h : statusPort s = 0x02) : s.cause = .none := by
  rw [← causeCode_eq_zero_iff, ← statusPort_cause, h]
  rfl

/-- Settles O53: the three sequences compute `digest`, `continueDigest` and `digest`, which the continuation property
relates. -/
theorem lengthExtensionAtCommands : Obligations.LengthExtensionAtCommands := by
  unfold Obligations.LengthExtensionAtCommands
  intro m x s hs hc hroom
  have hbits : paddedBits m.length = 8 * (m.length + (pad 0 m.length).length) := rfl
  have hoffset : (BitVec.ofNat 64 (paddedBits m.length)).toNat = paddedBits m.length :=
    (BitVec.toNat_ofNat _ _).trans (Nat.mod_eq_of_lt (by omega))
  obtain ⟨t, hsend, hdone, hstatus, hdigest⟩ := digestSequenceComputesDigest m s hs hc (by omega)
  obtain ⟨u, hsend', -, -, hcontinued⟩ :=
    continueSequenceComputesContinuation x (digest m) (BitVec.ofNat 64 (paddedBits m.length)) t (.inr hdone)
      (cause_none_of_statusPort_done hstatus) (by rwa [hoffset])
  obtain ⟨v, hsend'', -, -, hwhole⟩ :=
    digestSequenceComputesDigest (m ++ pad 0 m.length ++ x) s hs hc (by simp only [List.length_append]; omega)
  rw [hoffset, (continuationProperty m x hroom).2] at hcontinued
  exact ⟨t, u, v, digest m, _, hsend, hdigest, hsend', hsend'', hcontinued, hwhole⟩

/-! ### The source that fails -/

/-- In FAULT any commands are taken and ignored (rule R252), by induction on them. -/
theorem send_commands_in_fault (hf : s.phase = .fault) (is : List Instr) :
    send s (commands is) = .next { s with inputs := [] } := by
  induction is generalizing s with
  | nil => rfl
  | cons i is ih =>
    exact (send_command (decode_encode i) (exec_in_fault (s := { s with inputs := commands is }) i hf) rfl).trans
      (ih hf)

/-- Settles O54: INIT and the bytes leave a stream, SRCERR ends it in FAULT, and what follows is ignored. -/
theorem sourceFailureGivesNoDigest : Obligations.SourceFailureGivesNoDigest := by
  unfold Obligations.SourceFailureGivesNoDigest
  intro m is s hs hroom
  obtain ⟨t, hstream, ht, -⟩ := begins_init.send_stream hs (by rwa [Nat.zero_add]) (.srcerr :: is)
  have hfailed : send t (commands (.srcerr :: is)) = send (enterFault .sourceReadError { t with inputs := commands is })
      (commands is) := send_command (decode_encode .srcerr) (exec_srcerr ht.phase) rfl
  have hignored := (hstream.trans hfailed).trans (send_commands_in_fault rfl is)
  exact ⟨_, hignored, statusPort_sourceReadError rfl rfl, rfl⟩

end Sys2Proof.Safety
end

section
/-! The faults of the core: how each is entered, in which order they are chosen, what a raise writes, and that FAULT
lasts until the reset event (`60_exceptions.md` rules R244 to R252, R255). -/

namespace Sys2Proof.Machine

open Sys2Proof.Safety

variable {s t : State}

/-! ### What a raise writes, and what the ports show of it -/

/-- Settles O25: the field lemmas of `raiseFault`, and `settle` applying it to the state before the command. -/
theorem raiseWritesPhaseAndCause : Obligations.RaiseWritesPhaseAndCause := by
  unfold Obligations.RaiseWritesPhaseAndCause
  exact fun c s => ⟨fun hc => raiseFault_eq_enterFault hc s, raiseFault_phase c s, raiseFault_cause c s,
    raiseFault_ptr c s, raiseFault_len c s, raiseFault_t c s, raiseFault_inputs c s, settle_raised s c⟩

/-- In FAULT the STATUS port is the number 3 + 4·CAUSE (rules R103, R252). -/
theorem statusPort_toNat_of_fault (hf : s.phase = .fault) :
    (statusPort s).toNat = 3 + 4 * (causeCode s.cause).toNat := by
  rw [statusPort, hf]
  cases s.cause <;> rfl

/-! ### ProtocolError and LengthOverflow -/

/-- The commands ABSORB does not admit are those that begin a stream (rule R219). -/
theorem admits_absorb_eq_false_iff (i : Instr) :
    admits i .absorb = false ↔ i = .init ∨ ∃ fs ob, i = .resume fs ob := by
  cases i <;> simp [admits, startAllowed, streamAllowed]

/-- The commands ABSORB admits are those of a stream (rule R219). -/
theorem admits_absorb_iff (i : Instr) :
    admits i .absorb = true ↔ (∃ b, i = .push b) ∨ i = .final ∨ i = .srcerr := by
  cases i <;> simp [admits, startAllowed, streamAllowed]

/-- Settles O24: the commands that begin a stream are not admitted in one, those of a stream nowhere else. -/
theorem protocolErrorEntry : Obligations.ProtocolErrorEntry := by
  unfold Obligations.ProtocolErrorEntry
  exact ⟨fun s hp i hi => exec_start_in_absorb hp ((admits_absorb_eq_false_iff i).2 hi),
    fun s hs i hi => exec_stream_out_of_phase hs ((admits_absorb_iff i).2 hi),
    fun s => ⟨rfl, BitVec.eq_of_toNat_eq (statusPort_toNat_of_fault rfl)⟩⟩

/-- Settles O18: the check comes before the byte is taken; with room the invariant has the partial block written, so
that the byte is taken. -/
theorem lengthOverflowRaised : Obligations.LengthOverflowRaised := by
  unfold Obligations.LengthOverflowRaised
  refine fun s b hi hp => ⟨fun ho => ?overflow, fun hroom => ?room⟩
  case overflow => exact ⟨_, rfl, exec_push_overflow hp (decide_eq_true ho) b,
    BitVec.eq_of_toNat_eq (statusPort_toNat_of_fault rfl)⟩
  case room =>
    obtain ⟨bs, hl, hb⟩ := writtenBelow_holds (hi.written hp)
    obtain ⟨w, v, x, hexec⟩ := exec_push hp (decide_eq_false (Nat.not_le.2 hroom)) hl hb b
    exact ⟨_, hexec, hp, pushed_len_toNat hroom bs b w v x⟩

/-! ### IllegalCommand -/

/-- Outside FAULT a word that does not decode raises IllegalCommand (rule R245). -/
theorem step_illegal_raises {tx : Transaction} {rest : List HostInput} (hin : s.inputs = .command tx :: rest)
    (hf : s.phase ≠ .fault) (hwhy : ∃ why, decode tx = .error why) :
    step s = .next (enterFault .illegalCommand { s with inputs := rest }) := by
  obtain ⟨why, hd⟩ := hwhy
  exact (step_illegal hin hd).trans (illegalCommand_raises hf)

/-- Settles O3: the two kinds of words are those that do not decode. -/
theorem illegalCommandEntry : Obligations.IllegalCommandEntry := by
  unfold Obligations.IllegalCommandEntry
  intro s tx rest hin hp hword
  have hf : s.phase ≠ .fault := by obtain hp | hp | hp := hp <;> simp [hp]
  exact ⟨_, rfl, step_illegal_raises hin hf ((decode_error_iff tx).2 hword),
    BitVec.eq_of_toNat_eq (statusPort_toNat_of_fault rfl)⟩

/-! ### FAULT -/

/-- In FAULT a word is taken and nothing else happens, whether it decodes or not (rule R252). -/
theorem step_command_in_fault (hf : s.phase = .fault) {tx : Transaction} {rest : List HostInput}
    (hin : s.inputs = .command tx :: rest) : step s = .next { s with inputs := rest } := by
  cases hd : decode tx with
  | ok i => exact (step_command hin hd).trans (exec_in_fault i hf)
  | error why => exact (step_illegal hin hd).trans (illegalCommand_in_fault hf)

/-- Of the inputs the host can send only the reset event leads out of FAULT (rule R252). -/
theorem reset_of_step_leaves_fault (hf : s.phase = .fault) (h : step s = .next t) (ht : t.phase ≠ .fault) :
    ∃ rest, s.inputs = .reset :: rest := by
  match hin : s.inputs with
  | [] =>
    rw [step_no_input hin] at h
    cases h
    exact absurd hf ht
  | .reset :: rest => exact ⟨rest, rfl⟩
  | .command tx :: rest =>
    rw [step_command_in_fault hf hin] at h
    cases h
    exact absurd hf ht

/-- Settles O11: a word changes nothing, and of the other inputs only the reset event changes PHASE. -/
theorem faultPhaseIsSticky : Obligations.FaultPhaseIsSticky := by
  unfold Obligations.FaultPhaseIsSticky
  exact fun s hf => ⟨fun tx rest => step_command_in_fault hf, statusPort_toNat_of_fault hf,
    (digestPort_eq_none_iff s).2 (by simp [hf]), fun t => reset_of_step_leaves_fault hf,
    fun rest hin => ⟨_, step_reset hin, rfl, rfl⟩⟩

/-- Settles O10: no input, no change. -/
theorem noInputNoChange : Obligations.NoInputNoChange := fun _ => step_no_input

/-! ### The way into FAULT -/

/-- The faults of an admitted command are its own (rules R151, R153, R215). -/
theorem performs_raises {i : Instr} {c : Cause} (h : performs i s = .error (.raised c)) :
    (∃ b, i = .push b) ∧ c = .lengthOverflow ∨ i = .final ∧ c = .paddingInvariantViolation ∨
      i = .srcerr ∧ c = .sourceReadError := by
  cases i with
  | init | resume => cases h
  | push b => exact .inl ⟨⟨b, rfl⟩, (pAbsorb_raises h).1⟩
  | final =>
    obtain hpad | ⟨u, -, hu⟩ := bind_error_inv h
    · exact .inr (.inl ⟨rfl, pPad_raises hpad⟩)
    · cases hu
  | srcerr => cases h; exact .inr (.inr ⟨rfl, rfl⟩)

/-- A command that is completed does not end in FAULT. -/
theorem ne_fault_of_performs_ok {i : Instr} (hf : s.phase ≠ .fault) (h : performs i s = .ok t) :
    t.phase ≠ .fault := by
  cases i with
  | init | resume => cases h; exact (nomatch ·)
  | push b =>
    obtain ⟨h', v, x, w, -, rfl⟩ := pAbsorb_ok_eq h
    exact hf
  | final =>
    obtain ⟨u, -, hu⟩ := bind_ok_inv h
    cases hu
    exact (nomatch ·)
  | srcerr => cases h

/-- A command that leads into FAULT raised a fault: ProtocolError when the phase does not admit it, else a fault of its
own (rule R250). -/
theorem raises_of_exec_into_fault {i : Instr} (hf : s.phase ≠ .fault) (h : exec i s = .next t)
    (ht : t.phase = .fault) :
    ∃ c, t = raiseFault c s ∧
      (admits i s.phase = false ∧ c = .protocolError ∨ performs i s = .error (.raised c)) := by
  cases ends_of_exec h with
  | ignored hp => exact absurd hp hf
  | refused _ ha => exact ⟨.protocolError, rfl, .inl ⟨ha, rfl⟩⟩
  | completed _ hok => exact absurd ht (ne_fault_of_performs_ok hf hok)
  | raised _ hraised => exact ⟨_, rfl, .inr hraised⟩

/-- A step that leads into FAULT took one command, and all it did was to raise a fault (rules R249, R251). -/
theorem raises_of_step_into_fault (hf : s.phase ≠ .fault) (h : step s = .next t) (ht : t.phase = .fault) :
    ∃ tx rest c, s.inputs = .command tx :: rest ∧ t = raiseFault c { s with inputs := rest } := by
  match hin : s.inputs with
  | [] =>
    rw [step_no_input hin] at h
    cases h
    exact absurd ht hf
  | .reset :: rest =>
    rw [step_reset hin] at h
    cases h
    cases ht
  | .command tx :: rest =>
    cases hd : decode tx with
    | ok i =>
      rw [step_command hin hd] at h
      obtain ⟨c, rfl, -⟩ := raises_of_exec_into_fault (s := { s with inputs := rest }) hf h ht
      exact ⟨tx, rest, c, rfl, rfl⟩
    | error why =>
      rw [step_illegal_raises hin hf ⟨why, hd⟩] at h
      cases h
      exact ⟨tx, rest, .illegalCommand, rfl, rfl⟩

/-- Settles O26: the step into FAULT is a raise, and every raise but the padding fault's writes PHASE and CAUSE only. -/
theorem faultsArePrecise : Obligations.FaultsArePrecise := by
  unfold Obligations.FaultsArePrecise
  intro s t hf hstep ht hc
  obtain ⟨tx, rest, c, hin, rfl⟩ := raises_of_step_into_fault hf hstep ht
  rw [raiseFault_cause] at hc ⊢
  exact ⟨tx, rest, hin, raiseFault_eq_enterFault hc _⟩

/-! ### The order in which faults are chosen -/

/-- The phases beside FAULT and ABSORB are IDLE and DONE. -/
theorem mayStart_of_ne (hf : s.phase ≠ .fault) (ha : s.phase ≠ .absorb) : MayStart s := by
  cases hp : s.phase with
  | idle => exact .inl hp
  | done => exact .inr hp
  | absorb => exact absurd hp ha
  | fault => exact absurd hp hf

/-- Out of phase is a command that begins a stream in ABSORB, and any other command outside ABSORB (rule R246). -/
theorem not_admitted_of_phase {i : Instr} (hf : s.phase ≠ .fault)
    (h : (i = .init ∨ ∃ fs ob, i = .resume fs ob) ∧ s.phase = .absorb ∨
      ¬ (i = .init ∨ ∃ fs ob, i = .resume fs ob) ∧ s.phase ≠ .absorb) : admits i s.phase = false := by
  obtain ⟨hstart, hp⟩ | ⟨hstream, hp⟩ := h
  · rw [hp]
    exact (admits_absorb_eq_false_iff i).2 hstart
  · rw [← admits_absorb_eq_false_iff, Bool.not_eq_false] at hstream
    rw [admits_eq_not_admits_absorb (mayStart_of_ne hf hp), hstream]
    rfl

/-- The one fault a command can end in when it is given in ABSORB (rules R241, R243, R244, R246). -/
def faultInAbsorb : Instr → Cause
  | .init | .resume _ _ => .protocolError
  | .push _ => .lengthOverflow
  | .final => .paddingInvariantViolation
  | .srcerr => .sourceReadError

theorem cause_of_exec_into_fault {i : Instr} (hp : s.phase = .absorb) (h : exec i s = .next t) (ht : t.phase = .fault) :
    t.cause = faultInAbsorb i := by
  obtain ⟨c, rfl, ⟨ha, rfl⟩ | hraised⟩ := raises_of_exec_into_fault (by simp [hp]) h ht
  · rw [hp] at ha
    obtain rfl | ⟨fs, ob, rfl⟩ := (admits_absorb_eq_false_iff i).1 ha <;> rfl
  · obtain ⟨⟨b, rfl⟩, rfl⟩ | ⟨rfl, rfl⟩ | ⟨rfl, rfl⟩ := performs_raises hraised <;> rfl

/-- Settles O12: FAULT first, then decoding, then the phase, then the command's own fault; the reset event from any
state. -/
theorem faultPriority : Obligations.FaultPriority := by
  unfold Obligations.FaultPriority
  refine ⟨fun s tx rest hin => ⟨fun hf => step_command_in_fault hf hin, fun hf hwhy => ?illegal,
    fun i hf hd hphase => ?protocol, fun i t hp hd hstep => ?own⟩, fun s rest hin => ⟨_, step_reset hin, rfl, rfl⟩⟩
  case illegal => exact ⟨_, step_illegal_raises hin hf hwhy, rfl, rfl⟩
  case protocol =>
    have hexec := exec_not_admitted (s := { s with inputs := rest }) hf (not_admitted_of_phase hf hphase)
    exact ⟨_, (step_command hin hd).trans hexec, rfl, rfl⟩
  case own =>
    exact cause_of_exec_into_fault (s := { s with inputs := rest }) hp ((step_command hin hd).symm.trans hstep)

end Sys2Proof.Machine
end

section
/-! A computation after the reset event (`60_exceptions.md` rule R252, `70_reset_and_hazards.md` rules R280, R283). -/

namespace Sys2Proof.Safety

open Sys2Proof.Machine

/-- A reset event that is taken: the rest is sent from the state it leaves. -/
theorem send_reset (s : State) (is : List HostInput) :
    send s (.reset :: is) = send (resetCore { s with inputs := is }) is :=
  send_cons (step_reset rfl) rfl

/-- Settles O55: the reset event leaves IDLE with CAUSE 0, and the digest sequence asks for no more. -/
theorem resetThenDigest : Obligations.ResetThenDigest := by
  unfold Obligations.ResetThenDigest
  intro m s hroom
  obtain ⟨t, hsend, -, hstatus, hdigest⟩ := digestSequenceComputesDigest m
    (resetCore { s with inputs := commands (digestSequence m) }) (.inl rfl) rfl hroom
  exact ⟨t, (send_reset s _).trans hsend, hstatus, hdigest⟩

end Sys2Proof.Safety
end

section
/-! What the reset event leaves (`70_reset_and_hazards.md` rule R280). -/

namespace Sys2Proof.Machine

@[simp] theorem statusPort_resetCore (s : State) : statusPort (resetCore s) = 0 := by
  rw [statusPort, resetCore_cause, resetCore_phase]
  rfl

/-- DIGEST holds a free value after the event (log 4); the port shows none of it, for PHASE is not DONE. -/
@[simp] theorem digestPort_resetCore (s : State) : digestPort (resetCore s) = none :=
  (digestPort_eq_none_iff _).2 (by simp)

theorem read_buf_resetCore (s : State) (a : Nat) : (resetCore s).buf.read a = none := by
  rw [resetCore_buf, Memory.read_nil]

/-- Settles O8: the step on a reset event is `resetCore`, which looks at no phase. -/
theorem resetEventLeavesIdle : Obligations.ResetEventLeavesIdle := by
  unfold Obligations.ResetEventLeavesIdle
  intro s rest hin
  exact ⟨_, step_reset hin, resetCore_phase _, resetCore_cause _, resetCore_inputs _, statusPort_resetCore _,
    digestPort_resetCore _, read_buf_resetCore _⟩

end Sys2Proof.Machine
end
